-- ==== Sys2Proof/Word.lean ====
section
/-! DEFINITION. The widths of the machine: every value is an unsigned natural of a stated width (R9). -/

namespace Sys2Proof

/-- An 8-bit value: a general register, a timer, a memory cell (R20, R29, R30, R32). -/
abbrev Byte := BitVec 8

/-- A 16-bit value: the pc, `I`, a stack slot, an instruction word (R7, R63). -/
abbrev Word := BitVec 16

/-- A 4-bit register index `X` or `Y`, 0 to 15 (R64, R66). -/
abbrev Reg := BitVec 4

/-- A 4-bit unsigned count `N`: a sprite height, or a secondary key (R64, R66). -/
abbrev Nibble := BitVec 4

/-- The 12-bit address field `NNN` (R64). -/
abbrev Addr := BitVec 12

/-- The flag register VF = V[15] (R7 FLAGREG, R21). -/
abbrev VF : Reg := 15#4

end Sys2Proof
end

