-- ==== Sys2Proof/Syntax.lean ====
section
/-! DEFINITION. The 35 operation variants, one constructor per row of spec/opcode_table.json (R75, R78). -/

namespace Sys2Proof

/-- The operations with the operands R78 gives them. `nop` keeps the unassigned word it stands for (R73, log 8); its
meaning does not read it. SHR and SHL carry a Y that their meaning ignores (R72, R106, R108). -/
inductive Instr where
  | cls
  | ret
  | jp (nnn : Addr)
  | call (nnn : Addr)
  | seVxByte (x : Reg) (nn : Byte)
  | sneVxByte (x : Reg) (nn : Byte)
  | seVxVy (x y : Reg)
  | ldVxByte (x : Reg) (nn : Byte)
  | addVxByte (x : Reg) (nn : Byte)
  | ldVxVy (x y : Reg)
  | orVxVy (x y : Reg)
  | andVxVy (x y : Reg)
  | xorVxVy (x y : Reg)
  | addVxVy (x y : Reg)
  | sub (x y : Reg)
  | shr (x y : Reg)
  | subn (x y : Reg)
  | shl (x y : Reg)
  | sneVxVy (x y : Reg)
  | ldI (nnn : Addr)
  | jpV0 (nnn : Addr)
  | rnd (x : Reg) (nn : Byte)
  | drw (x y : Reg) (n : Nibble)
  | skp (x : Reg)
  | sknp (x : Reg)
  | ldVxDt (x : Reg)
  | ldVxK (x : Reg)
  | ldDtVx (x : Reg)
  | ldStVx (x : Reg)
  | addI (x : Reg)
  | ldF (x : Reg)
  | ldB (x : Reg)
  | stRegs (x : Reg)
  | ldRegs (x : Reg)
  | nop (w : Word)
  deriving DecidableEq, Repr

/-- The row of spec/opcode_table.json that an instruction belongs to (R78: the variant names are the row names). -/
def Instr.mnemonic : Instr → String
  | .cls => "CLS"
  | .ret => "RET"
  | .jp _ => "JP"
  | .call _ => "CALL"
  | .seVxByte _ _ => "SE_VX_BYTE"
  | .sneVxByte _ _ => "SNE_VX_BYTE"
  | .seVxVy _ _ => "SE_VX_VY"
  | .ldVxByte _ _ => "LD_VX_BYTE"
  | .addVxByte _ _ => "ADD_VX_BYTE"
  | .ldVxVy _ _ => "LD_VX_VY"
  | .orVxVy _ _ => "OR"
  | .andVxVy _ _ => "AND"
  | .xorVxVy _ _ => "XOR"
  | .addVxVy _ _ => "ADD_VX_VY"
  | .sub _ _ => "SUB"
  | .shr _ _ => "SHR"
  | .subn _ _ => "SUBN"
  | .shl _ _ => "SHL"
  | .sneVxVy _ _ => "SNE_VX_VY"
  | .ldI _ => "LD_I"
  | .jpV0 _ => "JP_V0"
  | .rnd _ _ => "RND"
  | .drw _ _ _ => "DRW"
  | .skp _ => "SKP"
  | .sknp _ => "SKNP"
  | .ldVxDt _ => "LD_VX_DT"
  | .ldVxK _ => "LD_VX_K"
  | .ldDtVx _ => "LD_DT_VX"
  | .ldStVx _ => "LD_ST_VX"
  | .addI _ => "ADD_I"
  | .ldF _ => "LD_F"
  | .ldB _ => "LD_B"
  | .stRegs _ => "ST_REGS"
  | .ldRegs _ => "LD_REGS"
  | .nop _ => "NOP"

end Sys2Proof
end

