-- ==== Sys2Proof/WellFormed.lean ====
section
/-! DEFINITION. Which terms of Instr stand for an instruction word. Every operand's range is its type (R64, R66); the
one thing a term can get wrong is a NOP over a word that R73 does not list as unassigned. -/

namespace Sys2Proof

/-- The unassigned words, exactly as R73 lists them: class 0 with N not in (0, E); class 8 with N in (8 to D, F);
class E with N not in (1, E); class F with NN not one of the nine keys of R71. -/
def unassigned (w : Word) : Bool :=
  let c := w.extractLsb' 12 4
  let n := w.extractLsb' 0 4
  let nn := w.extractLsb' 0 8
  (c == 0x0#4 && !(n == 0x0#4 || n == 0xE#4)) ||
  (c == 0x8#4 && (n == 0x8#4 || n == 0x9#4 || n == 0xA#4 || n == 0xB#4 || n == 0xC#4 || n == 0xD#4 || n == 0xF#4)) ||
  (c == 0xE#4 && !(n == 0x1#4 || n == 0xE#4)) ||
  (c == 0xF#4 && !(nn == 0x07#8 || nn == 0x0A#8 || nn == 0x15#8 || nn == 0x18#8 || nn == 0x1E#8 || nn == 0x29#8 ||
    nn == 0x33#8 || nn == 0x55#8 || nn == 0x65#8))

/-- A term is well formed when some word decodes to it. -/
def Instr.wf : Instr → Bool
  | .nop w => unassigned w
  | .cls | .ret | .jp _ | .call _ | .seVxByte _ _ | .sneVxByte _ _ | .seVxVy _ _ | .ldVxByte _ _ | .addVxByte _ _
  | .ldVxVy _ _ | .orVxVy _ _ | .andVxVy _ _ | .xorVxVy _ _ | .addVxVy _ _ | .sub _ _ | .shr _ _ | .subn _ _
  | .shl _ _ | .sneVxVy _ _ | .ldI _ | .jpV0 _ | .rnd _ _ | .drw _ _ _ | .skp _ | .sknp _ | .ldVxDt _ | .ldVxK _
  | .ldDtVx _ | .ldStVx _ | .addI _ | .ldF _ | .ldB _ | .stRegs _ | .ldRegs _ => true

end Sys2Proof
end

