-- ==== Sys2Proof/Decode.lean ====
section
/-! DEFINITION. From bytes to instructions and back: the fields of a word (R64), the pure total decode (R78), its byte
form (R48, R63), the encoder of the strict forms (R76), and the opcode table's masks (spec/opcode_table.json). -/

namespace Sys2Proof

/-! ### Fields of a word (R64) -/

/-- The primary opcode class `C = w[15:12]`. -/
def fieldC (w : Word) : BitVec 4 := w.extractLsb' 12 4
/-- The first register index `X = w[11:8]`. -/
def fieldX (w : Word) : Reg := w.extractLsb' 8 4
/-- The second register index `Y = w[7:4]`. -/
def fieldY (w : Word) : Reg := w.extractLsb' 4 4
/-- The sprite height or secondary key `N = w[3:0]`. -/
def fieldN (w : Word) : Nibble := w.extractLsb' 0 4
/-- The byte immediate or class-F key `NN = w[7:0]`. -/
def fieldNN (w : Word) : Byte := w.extractLsb' 0 8
/-- The address `NNN = w[11:0]`. -/
def fieldNNN (w : Word) : Addr := w.extractLsb' 0 12

/-- Two bytes of the stream as one word, the byte at the lower address high (R48, R63). -/
def wordOfBytes (hi lo : Byte) : Word := hi.setWidth 16 <<< 8 ||| lo.setWidth 16
/-- The byte of a word that lies at the lower address (R48). -/
def highByte (w : Word) : Byte := w.extractLsb' 8 8
/-- The byte of a word that lies at the higher address (R48). -/
def lowByte (w : Word) : Byte := w.extractLsb' 0 8

/-! ### Decode (R67 to R71, R78) -/

/-- Secondary table 0, keyed by N (R68). Bits 11 to 4 are not decoded. -/
def decodeClass0 (w : Word) : Instr :=
  match fieldN w with
  | 0x0#4 => .cls
  | 0xE#4 => .ret
  | _ => .nop w

/-- Secondary table 8, keyed by N (R69). -/
def decodeClass8 (w : Word) : Instr :=
  match fieldN w with
  | 0x0#4 => .ldVxVy (fieldX w) (fieldY w)
  | 0x1#4 => .orVxVy (fieldX w) (fieldY w)
  | 0x2#4 => .andVxVy (fieldX w) (fieldY w)
  | 0x3#4 => .xorVxVy (fieldX w) (fieldY w)
  | 0x4#4 => .addVxVy (fieldX w) (fieldY w)
  | 0x5#4 => .sub (fieldX w) (fieldY w)
  | 0x6#4 => .shr (fieldX w) (fieldY w)
  | 0x7#4 => .subn (fieldX w) (fieldY w)
  | 0xE#4 => .shl (fieldX w) (fieldY w)
  | _ => .nop w

/-- Secondary table E, keyed by N (R70). Bits 7 to 4 are not decoded. -/
def decodeClassE (w : Word) : Instr :=
  match fieldN w with
  | 0xE#4 => .skp (fieldX w)
  | 0x1#4 => .sknp (fieldX w)
  | _ => .nop w

/-- Secondary table F, keyed by NN (R71). -/
def decodeClassF (w : Word) : Instr :=
  match fieldNN w with
  | 0x07#8 => .ldVxDt (fieldX w)
  | 0x0A#8 => .ldVxK (fieldX w)
  | 0x15#8 => .ldDtVx (fieldX w)
  | 0x18#8 => .ldStVx (fieldX w)
  | 0x1E#8 => .addI (fieldX w)
  | 0x29#8 => .ldF (fieldX w)
  | 0x33#8 => .ldB (fieldX w)
  | 0x55#8 => .stRegs (fieldX w)
  | 0x65#8 => .ldRegs (fieldX w)
  | _ => .nop w

/-- `Decode(w)`, pure and total: every word decodes, none is illegal (R73, R78). Primary dispatch is on C (R67). -/
def decode (w : Word) : Instr :=
  match fieldC w with
  | 0x0#4 => decodeClass0 w
  | 0x1#4 => .jp (fieldNNN w)
  | 0x2#4 => .call (fieldNNN w)
  | 0x3#4 => .seVxByte (fieldX w) (fieldNN w)
  | 0x4#4 => .sneVxByte (fieldX w) (fieldNN w)
  | 0x5#4 => .seVxVy (fieldX w) (fieldY w)
  | 0x6#4 => .ldVxByte (fieldX w) (fieldNN w)
  | 0x7#4 => .addVxByte (fieldX w) (fieldNN w)
  | 0x8#4 => decodeClass8 w
  | 0x9#4 => .sneVxVy (fieldX w) (fieldY w)
  | 0xA#4 => .ldI (fieldNNN w)
  | 0xB#4 => .jpV0 (fieldNNN w)
  | 0xC#4 => .rnd (fieldX w) (fieldNN w)
  | 0xD#4 => .drw (fieldX w) (fieldY w) (fieldN w)
  | 0xE#4 => decodeClassE w
  | _ => decodeClassF w

/-- Why a byte stream holds no instruction. -/
inductive DecodeError where
  /-- Fewer than two bytes are left: every instruction is one 16-bit word (R63). Safe. -/
  | fewerThanTwoBytes
  deriving DecidableEq, Repr

/-- The instruction at the head of a byte stream and the rest of the stream. A decoder always consumes 2 bytes (R63). -/
def decodeBytes : List Byte → Except DecodeError (Instr × List Byte)
  | hi :: lo :: rest => .ok (decode (wordOfBytes hi lo), rest)
  | _ => .error .fewerThanTwoBytes

/-! ### Encode (R65, R76) -/

/-- The word of class `c` over the address `nnn` (format A). -/
def packA (c : BitVec 4) (nnn : Addr) : Word := c.setWidth 16 <<< 12 ||| nnn.setWidth 16
/-- The word of class `c` over a register and a byte (formats XB and XF). -/
def packXB (c : BitVec 4) (x : Reg) (nn : Byte) : Word :=
  c.setWidth 16 <<< 12 ||| x.setWidth 16 <<< 8 ||| nn.setWidth 16
/-- The word of class `c` over two registers and a nibble (formats XY and XYN). -/
def packXYN (c : BitVec 4) (x y : Reg) (n : Nibble) : Word :=
  c.setWidth 16 <<< 12 ||| x.setWidth 16 <<< 8 ||| y.setWidth 16 <<< 4 ||| n.setWidth 16

/-- The strict form of an instruction: R76's word column, with every "any" bit zero. A NOP is the word it stands for. -/
def encode : Instr → Word
  | .cls => 0x00E0#16
  | .ret => 0x00EE#16
  | .jp nnn => packA 0x1#4 nnn
  | .call nnn => packA 0x2#4 nnn
  | .seVxByte x nn => packXB 0x3#4 x nn
  | .sneVxByte x nn => packXB 0x4#4 x nn
  | .seVxVy x y => packXYN 0x5#4 x y 0x0#4
  | .ldVxByte x nn => packXB 0x6#4 x nn
  | .addVxByte x nn => packXB 0x7#4 x nn
  | .ldVxVy x y => packXYN 0x8#4 x y 0x0#4
  | .orVxVy x y => packXYN 0x8#4 x y 0x1#4
  | .andVxVy x y => packXYN 0x8#4 x y 0x2#4
  | .xorVxVy x y => packXYN 0x8#4 x y 0x3#4
  | .addVxVy x y => packXYN 0x8#4 x y 0x4#4
  | .sub x y => packXYN 0x8#4 x y 0x5#4
  | .shr x y => packXYN 0x8#4 x y 0x6#4
  | .subn x y => packXYN 0x8#4 x y 0x7#4
  | .shl x y => packXYN 0x8#4 x y 0xE#4
  | .sneVxVy x y => packXYN 0x9#4 x y 0x0#4
  | .ldI nnn => packA 0xA#4 nnn
  | .jpV0 nnn => packA 0xB#4 nnn
  | .rnd x nn => packXB 0xC#4 x nn
  | .drw x y n => packXYN 0xD#4 x y n
  | .skp x => packXB 0xE#4 x 0x9E#8
  | .sknp x => packXB 0xE#4 x 0xA1#8
  | .ldVxDt x => packXB 0xF#4 x 0x07#8
  | .ldVxK x => packXB 0xF#4 x 0x0A#8
  | .ldDtVx x => packXB 0xF#4 x 0x15#8
  | .ldStVx x => packXB 0xF#4 x 0x18#8
  | .addI x => packXB 0xF#4 x 0x1E#8
  | .ldF x => packXB 0xF#4 x 0x29#8
  | .ldB x => packXB 0xF#4 x 0x33#8
  | .stRegs x => packXB 0xF#4 x 0x55#8
  | .ldRegs x => packXB 0xF#4 x 0x65#8
  | .nop w => w

/-- An instruction's two bytes as the memory holds them, the high byte at the lower address (R48, R63). -/
def encodeBytes (i : Instr) : List Byte := [highByte (encode i), lowByte (encode i)]

/-! ### The opcode table -/

/-- One priority-1 row of spec/opcode_table.json: a word belongs to the row iff `word &&& mask = value`. -/
structure OpcodeRow where
  mnemonic : String
  mask : Word
  value : Word
  deriving DecidableEq, Repr

/-- Does a word belong to a row? -/
def OpcodeRow.covers (r : OpcodeRow) (w : Word) : Bool := w &&& r.mask == r.value

/-- The 34 priority-1 rows of spec/opcode_table.json in its order; a word no row covers is the NOP row's (priority 0). -/
def opcodeTable : List OpcodeRow :=
  [⟨"CLS", 0xF00F#16, 0x0000#16⟩, ⟨"RET", 0xF00F#16, 0x000E#16⟩, ⟨"JP", 0xF000#16, 0x1000#16⟩,
   ⟨"CALL", 0xF000#16, 0x2000#16⟩, ⟨"SE_VX_BYTE", 0xF000#16, 0x3000#16⟩, ⟨"SNE_VX_BYTE", 0xF000#16, 0x4000#16⟩,
   ⟨"SE_VX_VY", 0xF000#16, 0x5000#16⟩, ⟨"LD_VX_BYTE", 0xF000#16, 0x6000#16⟩,
   ⟨"ADD_VX_BYTE", 0xF000#16, 0x7000#16⟩] ++
  [⟨"LD_VX_VY", 0xF00F#16, 0x8000#16⟩, ⟨"OR", 0xF00F#16, 0x8001#16⟩, ⟨"AND", 0xF00F#16, 0x8002#16⟩,
   ⟨"XOR", 0xF00F#16, 0x8003#16⟩, ⟨"ADD_VX_VY", 0xF00F#16, 0x8004#16⟩, ⟨"SUB", 0xF00F#16, 0x8005#16⟩,
   ⟨"SHR", 0xF00F#16, 0x8006#16⟩, ⟨"SUBN", 0xF00F#16, 0x8007#16⟩, ⟨"SHL", 0xF00F#16, 0x800E#16⟩] ++
  [⟨"SNE_VX_VY", 0xF000#16, 0x9000#16⟩, ⟨"LD_I", 0xF000#16, 0xA000#16⟩, ⟨"JP_V0", 0xF000#16, 0xB000#16⟩,
   ⟨"RND", 0xF000#16, 0xC000#16⟩, ⟨"DRW", 0xF000#16, 0xD000#16⟩, ⟨"SKP", 0xF00F#16, 0xE00E#16⟩,
   ⟨"SKNP", 0xF00F#16, 0xE001#16⟩] ++
  [⟨"LD_VX_DT", 0xF0FF#16, 0xF007#16⟩, ⟨"LD_VX_K", 0xF0FF#16, 0xF00A#16⟩, ⟨"LD_DT_VX", 0xF0FF#16, 0xF015#16⟩,
   ⟨"LD_ST_VX", 0xF0FF#16, 0xF018#16⟩, ⟨"ADD_I", 0xF0FF#16, 0xF01E#16⟩, ⟨"LD_F", 0xF0FF#16, 0xF029#16⟩,
   ⟨"LD_B", 0xF0FF#16, 0xF033#16⟩, ⟨"ST_REGS", 0xF0FF#16, 0xF055#16⟩, ⟨"LD_REGS", 0xF0FF#16, 0xF065#16⟩]

/-! ### The host's view of a table word -/

/-- The 16-bit word of a table row's `nbits` bits `w`: the table numbers bit 0 least significant, and every bit above
`nbits` is 0 (log 12). -/
def tableWord (nbits w : Nat) : Word := BitVec.ofNat 16 (w % 2 ^ min nbits 16)

/-- What the decoder reads from a table word laid out in memory, high byte first (R48). -/
def decodeTableWord (nbits w : Nat) : Option Instr :=
  match decodeBytes [highByte (tableWord nbits w), lowByte (tableWord nbits w)] with
  | .ok (i, _) => some i
  | .error _ => none

end Sys2Proof
end

