-- ==== Sys2Proof/Machine/Flags.lean ====
section
/-! DEFINITION. The arithmetic of the ALU and its flags (R104 to R108, R110): operands are unsigned naturals, the result
is reduced modulo 256, and a flag is exactly 0 or 1. -/

namespace Sys2Proof.Machine

/-- A flag's byte: 1 or 0 (R21, R110). -/
def flagByte (b : Bool) : Byte := if b then 1 else 0

/-- ADD's result, u8(a + b) (R99, R104). -/
def addResult (a b : Byte) : Byte := BitVec.ofNat 8 (a.toNat + b.toNat)

/-- ADD's flag: carry, the 9-bit sum exceeds 255 (R104). -/
def addCarry (a b : Byte) : Bool := decide (a.toNat + b.toNat > 255)

/-- SUB's and SUBN's result, u8(a - b + 256) for minuend `a` and subtrahend `b` (R105, R107). -/
def subResult (a b : Byte) : Byte := BitVec.ofNat 8 (a.toNat + 256 - b.toNat)

/-- SUB's and SUBN's flag: no borrow, strictly minuend > subtrahend (R105, R107). -/
def subNoBorrow (a b : Byte) : Bool := decide (a.toNat > b.toNat)

/-- SHR's result, a >> 1 (R106). -/
def shrResult (a : Byte) : Byte := a >>> 1

/-- SHR's flag: the pre-shift least-significant bit (R106). -/
def shrFlag (a : Byte) : Bool := a.getLsbD 0

/-- SHL's result, u8(a << 1) (R108). -/
def shlResult (a : Byte) : Byte := a <<< 1

/-- SHL's flag: the pre-shift most-significant bit, normalised to 0 or 1 (R108, C1). -/
def shlFlag (a : Byte) : Bool := a.getLsbD 7

end Sys2Proof.Machine
end

