-- ==== Sys2Proof/Config.lean ====
section
/-! DEFINITION. The parameters of the hardware (R7), each at the value the table gives it, and the one free value the
spec leaves open, the random byte (R36, R149). The parameter FONT stands in Machine/Font.lean. -/

namespace Sys2Proof.Config

/-- NREGS: general registers V0 to VF (R7). -/
@[simp, reducible] def NREGS : Nat := 16
/-- MEMSIZE: bytes of memory, addresses 0 to 4095 (R7). -/
@[simp, reducible] def MEMSIZE : Nat := 4096
/-- The highest address that names a byte (R7, R46). -/
@[simp, reducible] def MEMTOP : Nat := 0xFFF
/-- ORIGIN: the load origin and the reset pc (R7). -/
@[simp, reducible] def ORIGIN : Nat := 0x200
/-- FONTBASE: where the font region begins (R7). -/
@[simp, reducible] def FONTBASE : Nat := 0x50
/-- FONTSIZE: 16 glyphs of 5 bytes (R7). -/
@[simp, reducible] def FONTSIZE : Nat := 80
/-- GLYPH: bytes per glyph (R7). -/
@[simp, reducible] def GLYPH : Nat := 5
/-- STACKDEPTH: call stack slots (R7). -/
@[simp, reducible] def STACKDEPTH : Nat := 16
/-- NKEYS: keypad keys (R7). -/
@[simp, reducible] def NKEYS : Nat := 16
/-- FBW: framebuffer columns (R7). -/
@[simp, reducible] def FBW : Nat := 64
/-- FBH: framebuffer rows (R7). -/
@[simp, reducible] def FBH : Nat := 32
/-- FBSIZE: framebuffer cells (R7). -/
@[simp, reducible] def FBSIZE : Nat := 2048
/-- The highest pc whose two bytes both exist (R81). -/
@[simp, reducible] def FETCHTOP : Nat := 0xFFE
/-- MAXROM: the largest loadable image, 4096 - 0x200 bytes (R7). -/
@[simp, reducible] def MAXROM : Nat := 3584

/-- FREE VALUE (log 4): the n-th byte of the random source's sequence, where the driver does not name it. The spec
lays no law on it, "any uniform byte generator; no reproducibility requirement" (R36, R149, D23), so it has no body. -/
opaque randomByte : Nat → Byte

end Sys2Proof.Config
end

