-- ==== Sys2Proof/Machine/State.lean ====
section
/-! DEFINITION. The machine's state as plain data (R19), the fault status (R31, R137), the reasons a step can stop, and
the state right after creation, the only reset (R39, R153). -/

namespace Sys2Proof.Machine

/-- The fault status `fault` (R31): the codes of R137 in table order. -/
inductive FaultCode where
  | none
  | stackOverflow
  | stackUnderflow
  | fetchOutOfRange
  | dataOutOfRange
  deriving DecidableEq, Repr

/-- Why `step` has no transition. -/
inductive Fault where
  /-- Raised by `step` alone, on a core whose fault status is `code`, not NONE: "A core with fault != NONE has no step"
  (R86, U12). The instruction that raised `code` took a NEXT state before (R85). Safe: the core has stopped for good. -/
  | stopped (code : FaultCode)
  deriving DecidableEq, Repr

/-- Why an instruction has no meaning. -/
inductive Refusal where
  /-- Raised by `exec`'s arm of an instruction that has no meaning yet. Safe. No arm of this model raises it. -/
  | notModelled (mnemonic : String)
  deriving DecidableEq, Repr

/-- The framebuffer: 32 rows of 64 one-bit cells (R34, R119, log 13). Row r's bit c is cell 64 * r + c. -/
abbrev Framebuffer := Vector (BitVec 64) 32

/-- The keypad snapshot: one flag per key 0 to 15, true when pressed (R35). -/
abbrev Keypad := Vector Bool 16

/-- The architectural state: the tuple of R19 "and nothing else", with exactly its eleven fields. -/
structure ArchState where
  /-- General registers V[0] to V[15] (R20). -/
  V : Vector Byte 16
  /-- Index register (R28). -/
  I : Word
  /-- Program counter (R23). -/
  pc : Word
  /-- Stack pointer: how many slots are occupied, 0 to 16 (R26, log 9). -/
  sp : Fin 17
  /-- Call stack slots, not part of memory (R27). -/
  stack : Vector Word 16
  /-- Delay timer (R29). -/
  DT : Byte
  /-- Sound timer (R30). -/
  ST : Byte
  /-- Memory: the cells that differ from their reset contents, addresses strictly rising (R32, log 7). -/
  mem : List Host.Cell
  /-- Framebuffer (R34). -/
  fb : Framebuffer
  /-- Fault status (R31). -/
  fault : FaultCode
  /-- Whether any Step has run (R38). -/
  started : Bool
  deriving DecidableEq, Repr

/-- The random byte of the coming step, an input from a device outside the block (R36, R149): `named` where the driver
supplied it, else the free byte at `place` of the device's sequence (log 4). -/
structure RandomInput where
  /-- The byte the driver supplied, none where it named none. -/
  named : Option Byte
  /-- Which byte of the source's sequence the coming step receives. -/
  place : Nat
  deriving DecidableEq, Repr

/-- What `step` runs over: the architectural state, and beside it the two "inputs of a step, not state the block keeps"
that R19 names and nothing else. They are held because the host's `step` takes no argument (log 3, log 4); no operation
writes them, and `archStep` is the transition with them as arguments (R79). Plain data throughout. -/
structure State extends ArchState where
  /-- INPUT: the keypad snapshot the driver set last (R35, log 3). -/
  keys : Keypad
  /-- INPUT: the random byte the coming step receives (R36, log 4). -/
  rand : RandomInput
  deriving DecidableEq, Repr

/-- The state at creation (R39, R153, R154): memory lists nothing, so every byte reads as its reset contents. -/
def State.reset : State where
  V := Vector.replicate 16 0
  I := 0
  pc := 0x200
  sp := 0
  stack := Vector.replicate 16 0
  DT := 0
  ST := 0
  mem := []
  fb := Vector.replicate 32 0
  fault := .none
  started := false
  keys := Vector.replicate 16 false
  rand := ⟨none, 0⟩

end Sys2Proof.Machine
end

