-- ==== Sys2Proof/Machine/Memory.lean ====
section
/-! DEFINITION. Memory as sparse plain data: what a byte reads as before anything has written it (R39, R53), one byte
read and written (R45, R47), and the canonical form every write keeps (log 7). -/

namespace Sys2Proof.Machine

/-- The reset contents of address `a`: the font at 0x050 to 0x09F, 0 elsewhere (R39, R53). An unlisted address reads so. -/
def Memory.blank (a : Nat) : Byte :=
  if Config.FONTBASE ≤ a ∧ a < Config.FONTBASE + Config.FONTSIZE then Config.FONT.getD (a - Config.FONTBASE) 0 else 0

/-- The byte at address `a`. -/
def Memory.read : List Host.Cell → Nat → Byte
  | [], a => Memory.blank a
  | (b, v) :: m, a => if a = b then v else Memory.read m a

/-- `m` with the byte at `a` replaced by `v`: the cell is listed only where `v` differs from the reset contents. -/
def Memory.write : List Host.Cell → Nat → Byte → List Host.Cell
  | [], a, v => if v = Memory.blank a then [] else [(a, v)]
  | (b, u) :: m, a, v =>
    if a < b then (if v = Memory.blank a then (b, u) :: m else (a, v) :: (b, u) :: m)
    else if a = b then (if v = Memory.blank a then m else (a, v) :: m)
    else (b, u) :: Memory.write m a v

/-- `bytes` written at `a`, `a + 1`, ... in that order. -/
def Memory.writeList (m : List Host.Cell) (a : Nat) : List Byte → List Host.Cell
  | [] => m
  | v :: vs => Memory.writeList (Memory.write m a v) (a + 1) vs

/-- The cells from address `lo` on are in canonical form: addresses strictly rising and below MEMSIZE, no cell equal to
its reset contents. -/
def Memory.wfFrom (lo : Nat) : List Host.Cell → Bool
  | [] => true
  | (a, v) :: m => decide (lo ≤ a) && decide (a < Config.MEMSIZE) && (v != Memory.blank a) && Memory.wfFrom (a + 1) m

/-- The canonical form of memory: equal memories are equal lists. -/
def Memory.wf (m : List Host.Cell) : Bool := Memory.wfFrom 0 m

/-- The byte at address `a` of a state's memory. -/
def State.readByte (s : State) (a : Nat) : Byte := Memory.read s.mem a

end Sys2Proof.Machine
end

