-- ==== Sys2Proof/Machine/Operands.lean ====
section
/-! DEFINITION. Every operand form of the machine: registers (R20), immediates and addresses (R66), the index register
(R28, R118), the timers (R29, R30), the framebuffer (R119), the keypad (R131, R134) and the random byte (R36). -/

namespace Sys2Proof.Machine

/-! ### Registers -/

/-- `V[x]` (R11, R20): no register is hardwired. -/
def State.getV (s : State) (x : Reg) : Byte := s.V[x.toNat]'(by have := x.isLt; omega)

/-- `V[x] <- v` (R11, R20). -/
def State.setV (s : State) (x : Reg) (v : Byte) : State :=
  { s with V := s.V.set x.toNat v (by have := x.isLt; omega) }

/-- `I <- v` (R28). -/
def State.setI (s : State) (v : Word) : State := { s with I := v }

/-- `pc <- target` (R11, R23). -/
def State.setPc (s : State) (target : Word) : State := { s with pc := target }

/-- `DT <- v` (R29). -/
def State.setDT (s : State) (v : Byte) : State := { s with DT := v }

/-- `ST <- v` (R30). -/
def State.setST (s : State) (v : Byte) : State := { s with ST := v }

/-- The register index of natural number `k` (0 to 15), for the block forms that count registers (R116, R117). -/
def regOfNat (k : Nat) : Reg := BitVec.ofNat 4 k

/-- The bytes of V0 to V[x], inclusive, in register order (R116). -/
def State.regsUpTo (s : State) (x : Reg) : List Byte :=
  (List.range (x.toNat + 1)).map fun k => s.getV (regOfNat k)

/-- `V[k], V[k+1], ... <- bytes` in that order (R117). -/
def State.setRegsFrom (s : State) (k : Nat) : List Byte → State
  | [] => s
  | v :: vs => State.setRegsFrom (s.setV (regOfNat k) v) (k + 1) vs

/-! ### Immediates and addresses (R66) -/

/-- An address field zero-extended to 16 bits. -/
def zextAddr (nnn : Addr) : Word := nnn.setWidth 16

/-- A register value zero-extended to 16 bits. -/
def zextByte (b : Byte) : Word := b.setWidth 16

/-- The address of the glyph that LD F names: 0x50 + 5 * V[x], the whole register (R114). -/
def glyphAddress (b : Byte) : Word := BitVec.ofNat 16 (Config.FONTBASE + Config.GLYPH * b.toNat)

/-- The hundreds, tens and ones digits of an unsigned byte, hundreds first (R115). -/
def bcdDigits (b : Byte) : List Byte :=
  [BitVec.ofNat 8 (b.toNat / 100), BitVec.ofNat 8 (b.toNat / 10 % 10), BitVec.ofNat 8 (b.toNat % 10)]

/-! ### Framebuffer cells (R119) -/

/-- Cell `a` of the framebuffer: row a div 64, column a mod 64 (R34, R119). -/
def Framebuffer.cell (fb : Framebuffer) (a : Fin 2048) : Bool :=
  (fb[a.val / 64]'(by omega)).getLsbD (a.val % 64)

/-- `fb[a] <- not fb[a]` (R121). -/
def Framebuffer.toggle (fb : Framebuffer) (a : Fin 2048) : Framebuffer :=
  fb.set (a.val / 64) ((fb[a.val / 64]'(by omega)) ^^^ BitVec.twoPow 64 (a.val % 64)) (by omega)

/-- All cells off (R120). -/
def Framebuffer.allOff : Framebuffer := Vector.replicate 32 0

/-- The framebuffer replaced. -/
def State.setFb (s : State) (fb : Framebuffer) : State := { s with fb := fb }

/-! ### Keypad (R35) -/

/-- `KeyPressed(v) = (v <= 15) and keys[v]` (R131): a value of 16 or more is "not pressed"; a lookup never faults. -/
def State.keyPressed (s : State) (v : Byte) : Bool := if h : v.toNat < 16 then s.keys[v.toNat] else false

/-- The least key index from `k` on, among the next `n`, whose key is pressed. -/
def firstPressed (keys : Keypad) (k : Nat) : Nat → Option Byte
  | 0 => none
  | n + 1 => if keys.getD k false then some (BitVec.ofNat 8 k) else firstPressed keys (k + 1) n

/-- "the least index in 0..15 with keys[k] pressed, if any" (R134). -/
def State.firstKey (s : State) : Option Byte := firstPressed s.keys 0 16

/-! ### The random byte (R36) -/

/-- The byte the input stands for: the one the driver named, or the source's free byte at its place (R36, log 4). -/
def RandomInput.byte (r : RandomInput) : Byte := r.named.getD (Config.randomByte r.place)

/-- The input of the step after: the source's next byte, as yet unnamed (R149). -/
def RandomInput.following (r : RandomInput) : RandomInput := ⟨none, r.place + 1⟩

/-- `rand`, as a step reads it (R36, R88). -/
def State.randomByte (s : State) : Byte := s.rand.byte

end Sys2Proof.Machine
end

