-- ==== Sys2Proof/Machine/Ops.lean ====
section
/-! DEFINITION. The shared operations the meanings are written over: raising a fault (R136), the byte-access primitives
and blocks of them (R47), the call stack (R26), skips (R16), result-then-flag writes (R111), and the timer tick (R126). -/

namespace Sys2Proof.Machine

/-- What a meaning or a step answers. -/
abbrev Answer := Host.Outcome State Fault Refusal

/-! ### Taking a fault (R85, R136)

`raise Fault(code)` is the only exception entry of the machine. It saves nothing, changes no mode and goes nowhere: it
keeps the state and sets `fault` and `started`. There is no return from a fault (R145), so no operation stands beside it. -/

/-- The state a fault leaves, over the state it keeps. -/
def State.withFault (code : FaultCode) (s : State) : State := { s with fault := code, started := true }

/-- `raise Fault(code)`: a next state. A meaning raises over the executing state, before any change of its own; the step
then keeps the state it began with (Machine/Cycle.lean, log 2). -/
def State.raise (code : FaultCode) (s : State) : Answer := .next (s.withFault code)

/-! ### Memory access (R47) -/

/-- `MemRead(a, 1)`: none where the access raises DATA_OUT_OF_RANGE. -/
def State.memRead (s : State) (a : Nat) : Option Byte := if a ≤ Config.MEMTOP then some (s.readByte a) else none

/-- `MemWrite(a, 1, v)`: none where the access raises DATA_OUT_OF_RANGE. -/
def State.memWrite (s : State) (a : Nat) (v : Byte) : Option State :=
  if a ≤ Config.MEMTOP then some { s with mem := Memory.write s.mem a v } else none

/-- The `n` bytes at `a`, `a + 1`, ..., by natural-number addresses with no wrap (R47, R118): none where any is out of
range. With `n = 0` nothing is accessed and nothing fails (R121). -/
def State.readBlock (s : State) (a : Nat) : Nat → Option (List Byte)
  | 0 => some []
  | n + 1 =>
    match s.memRead a, State.readBlock s (a + 1) n with
    | some b, some bs => some (b :: bs)
    | _, _ => none

/-- `bytes` stored at `a`, `a + 1`, ...: none where any address is out of range, and then no byte is written (R47). -/
def State.writeBlock (s : State) (a : Nat) : List Byte → Option State
  | [] => some s
  | v :: vs =>
    match s.memWrite a v with
    | some t => State.writeBlock t (a + 1) vs
    | none => none

/-- Store `bytes` through I, or raise DATA_OUT_OF_RANGE with nothing stored (R115, R116, R141). -/
def State.storeAtI (s : State) (bytes : List Byte) : Answer :=
  match s.writeBlock s.I.toNat bytes with
  | some t => .next t
  | none => s.raise .dataOutOfRange

/-! ### Call stack (R26, R27) -/

/-- `stack[sp] <- a; sp <- sp + 1`, or none when all 16 slots are in use (R91). -/
def State.push (s : State) (a : Word) : Option State :=
  if h : s.sp.val < 16 then
    some { s with stack := s.stack.set s.sp.val a h, sp := ⟨s.sp.val + 1, by omega⟩ }
  else none

/-- `sp <- sp - 1` and the slot it then names, which keeps its value; none when the stack is empty (R27, R89). -/
def State.pop (s : State) : Option (Word × State) :=
  if h : 0 < s.sp.val then
    some (s.stack[s.sp.val - 1]'(by omega), { s with sp := ⟨s.sp.val - 1, by omega⟩ })
  else none

/-! ### Control flow and results -/

/-- A skip: `pc <- u16(pc + 2)` on top of the fetch advance when `c` holds (R16, R92). -/
def State.skipIf (s : State) (c : Bool) : State := if c then s.setPc (s.pc + 2) else s

/-- The result to V[x] first, the flag to VF last: with x = 15 the flag wins (R111). -/
def State.setResultFlag (s : State) (x : Reg) (result : Byte) (flag : Bool) : State :=
  (s.setV x result).setV VF (flagByte flag)

/-! ### The timer countdown engine (R126) -/

/-- One timer's countdown: toward zero, never below it. -/
def countDown (t : Byte) : Byte := if t = 0 then 0 else t - 1

/-- `TimerTick()` (R126). -/
def State.timerTick (s : State) : State := { s with DT := countDown s.DT, ST := countDown s.ST }

end Sys2Proof.Machine
end

