-- ==== Sys2Proof/Machine/Cycle.lean ====
section
/-! DEFINITION. The phases of a step around Execute (R79): fetch (R81), advance (R80), the tick (R84), and the precise
fault that gives back the state the step began with (R85). -/

namespace Sys2Proof.Machine

/-- Phase 1, fetch: the word at pc, big-endian (R48, R81), from any pc, odd or even (R50). None where it raises
FETCH_OUT_OF_RANGE: both bytes must exist. -/
def State.fetchWord (s : State) : Option Word :=
  if s.pc.toNat ≤ Config.FETCHTOP then some (wordOfBytes (s.readByte s.pc.toNat) (s.readByte (s.pc.toNat + 1))) else none

/-- `started <- true` (R38, R79) and phase 2, advance: `pc <- u16(pc + 2)` (R80). -/
def State.beginExecute (s : State) : State := { s with started := true, pc := s.pc + 2 }

/-- Phase 5 of a step that does not fault: the timers tick (R84, R126). Then the source offers the next step's byte, since
each step receives its own (R36, log 4). -/
def State.endStep (s : State) : State := { s.timerTick with rand := s.rand.following }

/-- How a step that began in `s0` ends when Execute left `t`: by the tick, or, where Execute raised a fault, in `s0`
but for `fault` and `started` (R85, R136). -/
def State.conclude (s0 t : State) : State := if t.fault = .none then t.endStep else s0.withFault t.fault

/-- The step's answer, from Execute's. -/
def concludeAnswer (s0 : State) : Answer → Answer
  | .next t => .next (s0.conclude t)
  | .fault r => .fault r
  | .refused r => .refused r

/-- The bytes of a word stored where the next fetch reads them, high byte first (R48). -/
def State.placeWord (s : State) (w : Word) : State :=
  { s with mem := Memory.writeList s.mem s.pc.toNat [highByte w, lowByte w] }

/-- A state from which a step can fetch: no fault recorded, and a pc whose two bytes exist. Where `s` is one already
nothing changes (log 11). -/
def State.readyToFetch (s : State) : State :=
  { s with fault := .none, pc := if s.pc.toNat ≤ Config.FETCHTOP then s.pc else BitVec.ofNat 16 Config.ORIGIN }

end Sys2Proof.Machine
end

