-- ==== Sys2Proof/Machine/Alu.lean ====
section
/-! DEFINITION. Register loads, the ALU and RND (42_alu.md, R98 to R109). Operands are read before anything is written,
and a flag is written last (R111). -/

namespace Sys2Proof.Machine

/-- LD Vx, byte (R98). -/
def execLdVxByte (x : Reg) (nn : Byte) (s : State) : Answer := .next (s.setV x nn)

/-- ADD Vx, byte (R99): no flag. -/
def execAddVxByte (x : Reg) (nn : Byte) (s : State) : Answer := .next (s.setV x (addResult (s.getV x) nn))

/-- LD Vx, Vy (R100). -/
def execLdVxVy (x y : Reg) (s : State) : Answer := .next (s.setV x (s.getV y))

/-- OR Vx, Vy (R101): no flag. -/
def execOrVxVy (x y : Reg) (s : State) : Answer := .next (s.setV x (s.getV x ||| s.getV y))

/-- AND Vx, Vy (R102): no flag. -/
def execAndVxVy (x y : Reg) (s : State) : Answer := .next (s.setV x (s.getV x &&& s.getV y))

/-- XOR Vx, Vy (R103): no flag. -/
def execXorVxVy (x y : Reg) (s : State) : Answer := .next (s.setV x (s.getV x ^^^ s.getV y))

/-- ADD Vx, Vy (R104): VF is the carry. -/
def execAddVxVy (x y : Reg) (s : State) : Answer :=
  .next (s.setResultFlag x (addResult (s.getV x) (s.getV y)) (addCarry (s.getV x) (s.getV y)))

/-- SUB Vx, Vy (R105): VF is 1 iff V[x] > V[y]. -/
def execSub (x y : Reg) (s : State) : Answer :=
  .next (s.setResultFlag x (subResult (s.getV x) (s.getV y)) (subNoBorrow (s.getV x) (s.getV y)))

/-- SHR Vx (R106): V[x] is shifted, y is ignored. -/
def execShr (x _y : Reg) (s : State) : Answer :=
  .next (s.setResultFlag x (shrResult (s.getV x)) (shrFlag (s.getV x)))

/-- SUBN Vx, Vy (R107): V[y] is the minuend. -/
def execSubn (x y : Reg) (s : State) : Answer :=
  .next (s.setResultFlag x (subResult (s.getV y) (s.getV x)) (subNoBorrow (s.getV y) (s.getV x)))

/-- SHL Vx (R108): V[x] is shifted, y is ignored. -/
def execShl (x _y : Reg) (s : State) : Answer :=
  .next (s.setResultFlag x (shlResult (s.getV x)) (shlFlag (s.getV x)))

/-- RND Vx, byte (R109): `rand & NN`, no flag. -/
def execRnd (x : Reg) (nn : Byte) (s : State) : Answer := .next (s.setV x (s.randomByte &&& nn))

end Sys2Proof.Machine
end

