-- ==== Sys2Proof/Machine/ControlFlow.lean ====
section
/-! DEFINITION. NOP (R87) and the control-flow family (41_control_flow.md, R89 to R96). `pc` is the value already
advanced by 2 (R80). -/

namespace Sys2Proof.Machine

/-- NOP, every unassigned word `w`: nothing, whatever the word (R73, R87). -/
def execNop (_w : Word) (s : State) : Answer := .next s

/-- RET (R89): STACK_UNDERFLOW on an empty stack. -/
def execRet (s : State) : Answer :=
  match s.pop with
  | some (a, t) => .next (t.setPc a)
  | none => s.raise .stackUnderflow

/-- JP addr (R90). -/
def execJp (nnn : Addr) (s : State) : Answer := .next (s.setPc (zextAddr nnn))

/-- CALL addr (R91): pushes the advanced pc; STACK_OVERFLOW on a full stack. -/
def execCall (nnn : Addr) (s : State) : Answer :=
  match s.push s.pc with
  | some t => .next (t.setPc (zextAddr nnn))
  | none => s.raise .stackOverflow

/-- SE Vx, byte (R92). -/
def execSeVxByte (x : Reg) (nn : Byte) (s : State) : Answer := .next (s.skipIf (s.getV x == nn))

/-- SNE Vx, byte (R93). -/
def execSneVxByte (x : Reg) (nn : Byte) (s : State) : Answer := .next (s.skipIf (s.getV x != nn))

/-- SE Vx, Vy (R94). -/
def execSeVxVy (x y : Reg) (s : State) : Answer := .next (s.skipIf (s.getV x == s.getV y))

/-- SNE Vx, Vy (R95). -/
def execSneVxVy (x y : Reg) (s : State) : Answer := .next (s.skipIf (s.getV x != s.getV y))

/-- JP V0, addr (R96): the sum is not masked to 12 bits. -/
def execJpV0 (nnn : Addr) (s : State) : Answer := .next (s.setPc (zextByte (s.getV 0#4) + zextAddr nnn))

end Sys2Proof.Machine
end

