-- ==== Sys2Proof/Machine/Display.lean ====
section
/-! DEFINITION. CLS, DRW and the sprite rasterizer with its collision detector (44_display.md, R119 to R124). -/

namespace Sys2Proof.Machine

/-- `PixelAddr(x0, y0, r, c) = ((y0 + r) * 64 + (x0 + c)) mod 2048`: wrapped once, linearly (R122). -/
def pixelAddr (x0 y0 r c : Nat) : Fin 2048 := ⟨((y0 + r) * 64 + (x0 + c)) % 2048, Nat.mod_lt _ (by decide)⟩

/-- Column `c` of a sprite byte: bit 7 is column 0 (R123). -/
def spriteBit (b : Byte) (c : Nat) : Bool := b.getLsbD (7 - c)

/-- What the rasterizer carries: the framebuffer and whether an on cell was toggled off so far (R121). -/
structure Raster where
  fb : Framebuffer
  collided : Bool
  deriving DecidableEq, Repr

/-- XOR one cell, noting a collision (R121, R124). -/
def Raster.toggle (p : Raster) (a : Fin 2048) : Raster := ⟨p.fb.toggle a, p.collided || p.fb.cell a⟩

/-- Columns `c`, `c + 1`, ... of sprite row `r`, `n` of them. -/
def Raster.drawCols (p : Raster) (x0 y0 r : Nat) (b : Byte) (c : Nat) : Nat → Raster
  | 0 => p
  | n + 1 => Raster.drawCols (if spriteBit b c then p.toggle (pixelAddr x0 y0 r c) else p) x0 y0 r b (c + 1) n

/-- Sprite rows `r`, `r + 1`, ..., each of 8 columns (R121, R123). -/
def Raster.drawRows (p : Raster) (x0 y0 r : Nat) : List Byte → Raster
  | [] => p
  | b :: bs => Raster.drawRows (p.drawCols x0 y0 r b 0 8) x0 y0 (r + 1) bs

/-- `DrawSprite(originX, originY, spriteBytes)` over a framebuffer (44_display.md). -/
def drawSprite (fb : Framebuffer) (x0 y0 : Nat) (sprite : List Byte) : Raster :=
  Raster.drawRows ⟨fb, false⟩ x0 y0 0 sprite

/-- CLS (R120). -/
def execCls (s : State) : Answer := .next (s.setFb Framebuffer.allOff)

/-- DRW Vx, Vy, nibble (R121): the origin wraps per axis, every sprite address is checked before any cell changes, and
VF is written last. -/
def execDrw (x y : Reg) (n : Nibble) (s : State) : Answer :=
  match s.readBlock s.I.toNat n.toNat with
  | some sprite =>
    let p := drawSprite s.fb ((s.getV x).toNat % Config.FBW) ((s.getV y).toNat % Config.FBH) sprite
    .next ((s.setFb p.fb).setV VF (flagByte p.collided))
  | none => s.raise .dataOutOfRange

end Sys2Proof.Machine
end

