-- ==== Sys2Proof/Machine/IndexMemory.lean ====
section
/-! DEFINITION. The index register and the memory-block operations (43_index_and_memory.md, R112 to R117). None of the
block forms changes I (R118). -/

namespace Sys2Proof.Machine

/-- LD I, addr (R112). -/
def execLdI (nnn : Addr) (s : State) : Answer := .next (s.setI (zextAddr nnn))

/-- ADD I, Vx (R113): modulo 65536, no flag. -/
def execAddI (x : Reg) (s : State) : Answer := .next (s.setI (s.I + zextByte (s.getV x)))

/-- LD F, Vx (R114): V[x] is not masked. -/
def execLdF (x : Reg) (s : State) : Answer := .next (s.setI (glyphAddress (s.getV x)))

/-- LD B, Vx (R115): three decimal digits at I, I+1, I+2. -/
def execLdB (x : Reg) (s : State) : Answer := s.storeAtI (bcdDigits (s.getV x))

/-- LD [I], Vx (R116): V0 to V[x], inclusive. -/
def execStRegs (x : Reg) (s : State) : Answer := s.storeAtI (s.regsUpTo x)

/-- LD Vx, [I] (R117): V0 to V[x], inclusive; no register written where an address is out of range. -/
def execLdRegs (x : Reg) (s : State) : Answer :=
  match s.readBlock s.I.toNat (x.toNat + 1) with
  | some bytes => .next (s.setRegsFrom 0 bytes)
  | none => s.raise .dataOutOfRange

end Sys2Proof.Machine
end

