-- ==== Sys2Proof/Machine/TimersKeys.lean ====
section
/-! DEFINITION. Timer access and keypad input (45_timers_and_input.md, R128 to R134). The step's own tick follows (R84). -/

namespace Sys2Proof.Machine

/-- LD Vx, DT (R128). -/
def execLdVxDt (x : Reg) (s : State) : Answer := .next (s.setV x s.DT)

/-- LD DT, Vx (R129). -/
def execLdDtVx (x : Reg) (s : State) : Answer := .next (s.setDT (s.getV x))

/-- LD ST, Vx (R130). -/
def execLdStVx (x : Reg) (s : State) : Answer := .next (s.setST (s.getV x))

/-- SKP Vx (R132). -/
def execSkp (x : Reg) (s : State) : Answer := .next (s.skipIf (s.keyPressed (s.getV x)))

/-- SKNP Vx (R133). -/
def execSknp (x : Reg) (s : State) : Answer := .next (s.skipIf (!s.keyPressed (s.getV x)))

/-- LD Vx, K (R134): the lowest pressed key, or the advance undone so that the word runs again next step (R135). -/
def execLdVxK (x : Reg) (s : State) : Answer :=
  match s.firstKey with
  | some k => .next (s.setV x k)
  | none => .next (s.setPc (s.pc - 2))

end Sys2Proof.Machine
end

