-- ==== Sys2Proof/Machine/Step.lean ====
section
/-! DEFINITION. `Step` (R79), the only transition of the block, over the inputs the state holds (log 3, log 4). -/

namespace Sys2Proof.Machine

/-- One step: no transition on a faulted core (R86); else fetch, advance, decode, execute, tick (R79 to R85). -/
def step (s : State) : Host.Outcome State Fault Refusal :=
  if s.fault = .none then
    match s.fetchWord with
    | some w => concludeAnswer s (exec (decode w) s.beginExecute)
    | none => s.raise .fetchOutOfRange
  else .fault (.stopped s.fault)

/-- `s` with the table word `w` of `nbits` bits stored where the next step fetches (log 10, log 11). -/
def State.withFetchWord (s : State) (nbits w : Nat) : State := s.readyToFetch.placeWord (tableWord nbits w)

end Sys2Proof.Machine
end

