-- ==== Sys2Proof/Machine/Ports.lean ====
section
/-! DEFINITION. The block's ports, used by the driver between steps (R42, R150): creation, the load port, the keypad and
random inputs, and the outputs. -/

namespace Sys2Proof.Machine

/-- What the load port answers (R42, R156). -/
inductive LoadResult where
  | ok
  | error
  deriving DecidableEq, Repr

/-- `Load(bytes)` (R156, R157): refused after the first step and for an image over 3584 bytes, and then nothing is
written; else a plain copy to 0x200 on. It resets no other state (R155). -/
def State.load (bytes : List Byte) (s : State) : LoadResult × State :=
  if s.started then (.error, s)
  else if bytes.length > Config.MAXROM then (.error, s)
  else (.ok, { s with mem := Memory.writeList s.mem Config.ORIGIN bytes })

/-- Creation of a fresh core (R153): the reset state. The random source is a device outside the block (R149), which
creating a core does not set back (log 14). -/
def State.create (s : State) : State := { State.reset with rand := s.rand }

/-- The driver sets the keypad snapshot (R35, R150). -/
def State.setKeys (keys : Keypad) (s : State) : State := { s with keys := keys }

/-- The driver supplies the random byte of the coming step (R36, R150). -/
def State.supplyRandom (b : Byte) (s : State) : State := { s with rand := { s.rand with named := some b } }

/-- Output `sound_active = (ST != 0)` (R127). -/
def State.soundActive (s : State) : Bool := s.ST != 0

/-- Output `fb`: cell `a` (R34, R42). -/
def State.pixel (s : State) (a : Fin 2048) : Bool := s.fb.cell a

/-- Output `fault` (R31, R42). -/
def State.faultStatus (s : State) : FaultCode := s.fault

end Sys2Proof.Machine
end

