-- ==== Sys2Proof/Machine/Driver.lean ====
section
/-! DEFINITION. The driver's moves, one at a time (R57, R150): what the host may do is a move; what it must not do has no
move here (log 14). -/

namespace Sys2Proof.Machine

/-- The moves of R150's table that change something. -/
inductive Move where
  | create
  | load (bytes : List Byte)
  | keypad (keys : Keypad)
  | random (b : Byte)
  | step
  deriving DecidableEq, Repr

/-- One move of the driver. -/
def State.move (s : State) : Move → Answer
  | .create => .next s.create
  | .load bytes => .next (s.load bytes).2
  | .keypad keys => .next (s.setKeys keys)
  | .random b => .next (s.supplyRandom b)
  | .step => Sys2Proof.Machine.step s

/-- A run of the driver: its moves one after another, stopping where one has no next state (R56, R57). -/
def State.drive (s : State) : List Move → Answer
  | [] => .next s
  | m :: ms =>
    match s.move m with
    | .next t => State.drive t ms
    | .fault r => .fault r
    | .refused r => .refused r

/-- `Step(keys, rand)` of R79: the driver supplies both inputs and calls Step (R88). -/
def stepWith (keys : Keypad) (rand : Byte) (s : State) : Answer := step ((s.setKeys keys).supplyRandom rand)

/-- What an answer says of the architectural state. -/
def archAnswer : Answer → Host.Outcome ArchState Fault Refusal
  | .next t => .next t.toArchState
  | .fault r => .fault r
  | .refused r => .refused r

/-- The machine of R19 and R79: `Step(keys, rand)` as a transition of the eleven-field tuple alone, its two inputs
arguments. -/
def archStep (keys : Keypad) (rand : Byte) (a : ArchState) : Host.Outcome ArchState Fault Refusal :=
  archAnswer (stepWith keys rand { State.reset with toArchState := a })

end Sys2Proof.Machine
end

