-- ==== Sys2Proof/Safety.lean ====
section
/-! DEFINITION. The terms claims are stated in: ends of a run (R166), states a driver can reach, the invariant of those
states (R24, R44), what an instruction leaves unchanged, and a sprite's cells (R122, R123). -/

namespace Sys2Proof.Machine

/-- A faulted end (R166 a). -/
def State.faultedEnd (s : State) : Prop := s.fault ≠ .none

/-- An idle end (R166 b): the word at pc is a jump to itself. -/
def State.idleEnd (s : State) : Prop := s.fault = .none ∧ s.fetchWord = some (0x1000#16 ||| s.pc) ∧ s.pc.toNat ≤ 0xFFE

/-- The states some driver can bring the core into: creation, then any moves (R44, R150). -/
inductive Reachable : State → Prop
  | created : Reachable State.reset
  | moved {s t : State} {m : Move} (h : Reachable s) (hm : s.move m = .next t) : Reachable t

/-- The machine's invariant: memory in canonical form (log 7), a pc that never wrapped, at most 0x10FE, and call-stack
slots that hold pushed values, at most 0x1000 (R24). The other bounds of R44 hold by the fields' types. -/
structure State.Inv (s : State) : Prop where
  mem_wf : Memory.wf s.mem = true
  pc_le : s.pc.toNat ≤ 0x10FE
  stack_le : ∀ k : Fin 16, s.stack[k].toNat ≤ 0x1000

/-- The parts of the state beside the general registers. -/
inductive Part where
  | I | pc | sp | stack | DT | ST | mem | fb | fault | started | keys | rand
  deriving DecidableEq, Repr

/-- A part is the same in two states; memory, byte by byte. -/
def Part.same (s t : State) : Part → Prop
  | .I => t.I = s.I
  | .pc => t.pc = s.pc
  | .sp => t.sp = s.sp
  | .stack => t.stack = s.stack
  | .DT => t.DT = s.DT
  | .ST => t.ST = s.ST
  | .mem => ∀ a, t.readByte a = s.readByte a
  | .fb => t.fb = s.fb
  | .fault => t.fault = s.fault
  | .started => t.started = s.started
  | .keys => t.keys = s.keys
  | .rand => t.rand = s.rand

/-- From `s` to `t` nothing changed but the registers `regs` and the parts `parts`. -/
def OnlyChanges (regs : List Reg) (parts : List Part) (s t : State) : Prop :=
  (∀ r, r ∉ regs → t.getV r = s.getV r) ∧ ∀ p, p ∉ parts → p.same s t

/-- Every word of the table row `mask`, `value` decodes to `i` of that word. -/
def Encodes (mask value : Word) (i : Word → Instr) : Prop := ∀ w : Word, w &&& mask = value → decode w = i w

/-- A step from `s` fetches an instruction that decodes to `i` (R79, R81). -/
def Fetches (s : State) (i : Instr) : Prop :=
  s.fault = .none ∧ s.pc.toNat ≤ 0xFFE ∧
    decodeBytes [s.readByte s.pc.toNat, s.readByte (s.pc.toNat + 1)] = .ok (i, [])

/-- Cell `a` is covered by a set bit of a sprite of `n` rows at address `base` of `s`'s memory, drawn with its origin at
(x0, y0): some row r < n and column c < 8 with bit 7 - c set and ((y0 + r) * 64 + (x0 + c)) mod 2048 = a (R122, R123). -/
def SpriteCovers (s : State) (base x0 y0 n : Nat) (a : Fin 2048) : Prop :=
  ∃ r c : Nat, r < n ∧ c < 8 ∧ (s.readByte (base + r)).getLsbD (7 - c) = true ∧
    ((y0 + r) * 64 + (x0 + c)) % 2048 = a.val

/-- The operations that write VF as a flag, exactly these six (R21). -/
def flagWriter : Instr → Bool
  | .addVxVy _ _ | .sub _ _ | .shr _ _ | .subn _ _ | .shl _ _ | .drw _ _ _ => true
  | .cls | .ret | .jp _ | .call _ | .seVxByte _ _ | .sneVxByte _ _ | .seVxVy _ _ | .ldVxByte _ _ | .addVxByte _ _
  | .ldVxVy _ _ | .orVxVy _ _ | .andVxVy _ _ | .xorVxVy _ _ | .sneVxVy _ _ | .ldI _ | .jpV0 _ | .rnd _ _ | .skp _
  | .sknp _ | .ldVxDt _ | .ldVxK _ | .ldDtVx _ | .ldStVx _ | .addI _ | .ldF _ | .ldB _ | .stRegs _ | .ldRegs _
  | .nop _ => false

/-- The operations that read the keypad snapshot, exactly these three (R35, R83). -/
def readsKeys : Instr → Bool
  | .skp _ | .sknp _ | .ldVxK _ => true
  | .cls | .ret | .jp _ | .call _ | .seVxByte _ _ | .sneVxByte _ _ | .seVxVy _ _ | .ldVxByte _ _ | .addVxByte _ _
  | .ldVxVy _ _ | .orVxVy _ _ | .andVxVy _ _ | .xorVxVy _ _ | .addVxVy _ _ | .sub _ _ | .shr _ _ | .subn _ _
  | .shl _ _ | .sneVxVy _ _ | .ldI _ | .jpV0 _ | .rnd _ _ | .drw _ _ _ | .ldVxDt _ | .ldDtVx _ | .ldStVx _ | .addI _
  | .ldF _ | .ldB _ | .stRegs _ | .ldRegs _ | .nop _ => false

/-- The operation that reads the step's random byte: RND alone (R36, R83). -/
def readsRandom : Instr → Bool
  | .rnd _ _ => true
  | .cls | .ret | .jp _ | .call _ | .seVxByte _ _ | .sneVxByte _ _ | .seVxVy _ _ | .ldVxByte _ _ | .addVxByte _ _
  | .ldVxVy _ _ | .orVxVy _ _ | .andVxVy _ _ | .xorVxVy _ _ | .addVxVy _ _ | .sub _ _ | .shr _ _ | .subn _ _
  | .shl _ _ | .sneVxVy _ _ | .ldI _ | .jpV0 _ | .drw _ _ _ | .skp _ | .sknp _ | .ldVxDt _ | .ldVxK _ | .ldDtVx _
  | .ldStVx _ | .addI _ | .ldF _ | .ldB _ | .stRegs _ | .ldRegs _ | .nop _ => false

/-- The registers an operation names as its destination (R98 to R109, R117, R128, R134), the flag apart. -/
def destination : Instr → List Reg
  | .ldVxByte x _ | .addVxByte x _ | .ldVxVy x _ | .orVxVy x _ | .andVxVy x _ | .xorVxVy x _ | .addVxVy x _ | .sub x _
  | .shr x _ | .subn x _ | .shl x _ | .rnd x _ | .ldVxDt x | .ldVxK x => [x]
  | .ldRegs x => (List.range (x.toNat + 1)).map fun k => BitVec.ofNat 4 k
  | .cls | .ret | .jp _ | .call _ | .seVxByte _ _ | .sneVxByte _ _ | .seVxVy _ _ | .sneVxVy _ _ | .ldI _ | .jpV0 _
  | .drw _ _ _ | .skp _ | .sknp _ | .ldDtVx _ | .ldStVx _ | .addI _ | .ldF _ | .ldB _ | .stRegs _ | .nop _ => []

end Sys2Proof.Machine
end

