-- ==== Sys2Proof/Certificates/Slice0/Obligations.lean ====
section
/-! DEFINITION. The statements about the model. In a statement about `exec`, `s` is the executing state: its pc is
already advanced by 2 (R13, R80). `OnlyChanges regs parts s t` is the frame: nothing changed from `s` to `t` but the
registers `regs` and the parts `parts` of the state. -/

open Sys2Proof Sys2Proof.Machine

/-! ### Reset and the machine's invariant -/

/-- R39 and R154, every field at creation. The values of `fault`, `started` and the keypad are the spec's own decisions
D19, D24 and D28, and the font's bytes are named through FONT (D18). -/
def Obligations.ResetStateHoldsSpecValues : Prop :=
  (∀ r, State.reset.getV r = 0) ∧ State.reset.I = 0 ∧ State.reset.pc.toNat = 0x200 ∧ State.reset.sp.val = 0 ∧
  (∀ k : Fin 16, State.reset.stack[k] = 0) ∧ State.reset.DT = 0 ∧ State.reset.ST = 0 ∧
  (∀ a, a < 0x50 ∨ (0xA0 ≤ a ∧ a ≤ 0xFFF) → State.reset.readByte a = 0) ∧
  Config.FONT.length = 80 ∧ (∀ k (h : k < Config.FONT.length), State.reset.readByte (0x50 + k) = Config.FONT[k]) ∧
  (∀ a, State.reset.pixel a = false) ∧ State.reset.fault = .none ∧ State.reset.started = false ∧
  (∀ k : Fin 16, State.reset.keys[k] = false)

/-- The invariant holds at reset. -/
def Obligations.ResetSatisfiesInvariant : Prop := State.reset.Inv

/-- R24 and R44 as an inductive invariant: memory stays canonical (the model's form, log 7), the pc stays at most 0x10FE,
and every call-stack slot at most 0x1000, over every step, faulting steps among them. -/
def Obligations.StepKeepsInvariant : Prop := ∀ s t : State, s.Inv → step s = .next t → t.Inv

/-- R24 and R44 over every state any driver can reach: creation, loads, keypads, random bytes and steps in any order. -/
def Obligations.ReachableStatesSatisfyInvariant : Prop := ∀ s : State, Reachable s → s.Inv

/-! ### Encoding -/

/-- Decoding the two bytes of an encoded well-formed instruction gives it back, with every operand at every value, and
the rest of the stream is left (R63, R65, R76, R78). -/
def Obligations.DecodeEncodeRoundTrip : Prop :=
  ∀ (i : Instr) (rest : List Byte), i.wf = true → decodeBytes (encodeBytes i ++ rest) = .ok (i, rest)

/-- Every word decodes to a well-formed instruction, and its strict form decodes to the same (R73, R76, R78). -/
def Obligations.EveryWordDecodesWellFormed : Prop :=
  ∀ w : Word, (decode w).wf = true ∧ decode (encode (decode w)) = decode w

/-- Decode is the opcode table: a word that a priority-1 row covers decodes to that row's operation, no word is covered
by rows of two mnemonics, and a word that none covers is a NOP (R78, spec/opcode_table.json). -/
def Obligations.DecodeFollowsOpcodeTable : Prop :=
  ∀ w : Word, (∀ r ∈ opcodeTable, r.covers w = true → (decode w).mnemonic = r.mnemonic) ∧
    ((∀ r ∈ opcodeTable, r.covers w = false) → decode w = .nop w)

/-- The unassigned words are exactly those R73 lists, in numbers. -/
def Obligations.UnassignedWordsAreNops : Prop :=
  ∀ w : Word, decode w = .nop w ↔
    (w.toNat / 4096 = 0x0 ∧ w.toNat % 16 ≠ 0x0 ∧ w.toNat % 16 ≠ 0xE) ∨
    (w.toNat / 4096 = 0x8 ∧ (0x8 ≤ w.toNat % 16 ∧ w.toNat % 16 ≤ 0xD ∨ w.toNat % 16 = 0xF)) ∨
    (w.toNat / 4096 = 0xE ∧ w.toNat % 16 ≠ 0x1 ∧ w.toNat % 16 ≠ 0xE) ∨
    (w.toNat / 4096 = 0xF ∧ w.toNat % 256 ∉ [0x07, 0x0A, 0x15, 0x18, 0x1E, 0x29, 0x33, 0x55, 0x65])

/-- The fields' places, in numbers (R64; the places of X, Y, N and NN are the spec's decision D15). -/
def Obligations.FieldsAreWhereTheSpecPutsThem : Prop :=
  ∀ w : Word, (fieldC w).toNat = w.toNat / 4096 ∧ (fieldNNN w).toNat = w.toNat % 4096 ∧
    (fieldX w).toNat = w.toNat / 256 % 16 ∧ (fieldY w).toNat = w.toNat / 16 % 16 ∧
    (fieldNN w).toNat = w.toNat % 256 ∧ (fieldN w).toNat = w.toNat % 16

/-- Words written out bit by bit from the spec's encodings decode to what they stand for (R78, decode vectors of
95_test_vectors.md). -/
def Obligations.SampleWordsDecode : Prop :=
  decode 0b0000_0001_0010_0000#16 = .cls ∧ decode 0b0000_0000_1110_1110#16 = .ret ∧
  decode 0b0101_0001_0010_1111#16 = .seVxVy 1 2 ∧ decode 0b1000_0001_0010_0111#16 = .subn 1 2 ∧
  decode 0b1101_0001_0010_0101#16 = .drw 1 2 5 ∧ decode 0b1110_0000_0001_0001#16 = .sknp 0 ∧
  decode 0b1111_0000_0001_1110#16 = .addI 0 ∧ decode 0b1010_0100_0000_0000#16 = .ldI 0x400 ∧
  decode 0b1111_0000_1111_1111#16 = .nop 0xF0FF

/-! ### The step -/

/-- A step whose bytes at pc decode to `i` runs `i` with `started` set and the pc advanced by 2, then ticks both timers;
where `i` raises a fault it gives back the state it began with, but for `fault` and `started` (R79 to R85). That the
next step's random byte is the source's next one is the model's choice, log 4. -/
def Obligations.StepRunsDecodedInstruction : Prop :=
  ∀ (s t : State) (i : Instr), Fetches s i → exec i { s with started := true, pc := s.pc + 2 } = .next t →
    (t.fault = .none → step s = .next { t with
      DT := if t.DT = 0 then 0 else t.DT - 1, ST := if t.ST = 0 then 0 else t.ST - 1, rand := ⟨none, t.rand.place + 1⟩ }) ∧
    (t.fault ≠ .none → step s = .next { s with fault := t.fault, started := true })

/-- The fetched word is `mem[pc] * 256 + mem[pc + 1]`, from any pc that names two bytes, odd or even, and what a step
decodes is that word (R48). -/
def Obligations.FetchIsBigEndian : Prop :=
  (∀ s : State, s.pc.toNat ≤ 0xFFE → ∃ w, s.fetchWord = some w ∧
    w.toNat = (s.readByte s.pc.toNat).toNat * 256 + (s.readByte (s.pc.toNat + 1)).toNat) ∧
  ∀ hi lo : Byte, ∃ w : Word, decodeBytes [hi, lo] = .ok (decode w, []) ∧ w.toNat = hi.toNat * 256 + lo.toNat

/-- A pc above 0x0FFE: the fetch faults before any other effect (R81, the spec's decision D5). -/
def Obligations.FetchOutOfRangeFaults : Prop :=
  ∀ s : State, s.fault = .none → 0xFFE < s.pc.toNat →
    step s = .next { s with fault := .fetchOutOfRange, started := true }

/-- A faulted core has no step (R86, D19); that `step` answers the stop by name is the model's choice, log 1. -/
def Obligations.FaultedCoreHasNoStep : Prop := ∀ s : State, s.fault ≠ .none → step s = .fault (.stopped s.fault)

/-- Every operation completes within the step: nothing is refused, and a core without a fault always has a step (R83,
R163). -/
def Obligations.EveryInstructionAnswersNext : Prop :=
  (∀ (i : Instr) (s : State), ∃ t, exec i s = .next t) ∧
  ∀ s : State, s.fault = .none → ∃ t, step s = .next t ∧ t.started = true

/-- A faulting step is precise: nothing changes but `fault` and `started` (R85, R136, the spec's decision D19). -/
def Obligations.FaultingStepIsPrecise : Prop :=
  ∀ s t : State, step s = .next t → t.fault ≠ .none → t = { s with fault := t.fault, started := true }

/-- Who raises which fault, and exactly when (R137 to R141, the spec's decisions D2, D3, D6, D19). -/
def Obligations.FaultsHaveNamedCauses : Prop :=
  ∀ (i : Instr) (s t : State), s.fault = .none → exec i s = .next t →
    (t.fault = .stackOverflow ↔ (∃ nnn, i = .call nnn) ∧ s.sp.val = 16) ∧
    (t.fault = .stackUnderflow ↔ i = .ret ∧ s.sp.val = 0) ∧
    (t.fault = .dataOutOfRange ↔
      (∃ x y n, i = .drw x y n ∧ 0 < n.toNat ∧ 0xFFF < s.I.toNat + n.toNat - 1) ∨
      (∃ x, i = .ldB x ∧ 0xFFF < s.I.toNat + 2) ∨
      (∃ x, (i = .stRegs x ∨ i = .ldRegs x) ∧ 0xFFF < s.I.toNat + x.toNat)) ∧
    t.fault ≠ .fetchOutOfRange ∧
    (t.fault ≠ .none → t = { s with fault := t.fault, started := true })

/-- Both timers go down by one, never below 0, in every step that does not fault, unless the step's instruction sets
them (R84, R126, the spec's decision D1). -/
def Obligations.TimersTickOncePerStep : Prop :=
  ∀ (s t : State) (i : Instr), Fetches s i → step s = .next t → t.fault = .none →
    ((∀ x, i ≠ .ldDtVx x) → t.DT.toNat = s.DT.toNat - 1) ∧ ((∀ x, i ≠ .ldStVx x) → t.ST.toNat = s.ST.toNat - 1)

/-! ### NOP and control flow -/

/-- R87: an unassigned word changes nothing; its step only advances the pc and ticks. Of the next
step's input `rand` it says nothing (log 4). -/
def Obligations.NopOnlyAdvancesAndTicks : Prop :=
  (∀ w : Word, unassigned w = true → decode w = .nop w) ∧ (∀ (w : Word) (s : State), exec (.nop w) s = .next s) ∧
  ∀ (w : Word) (s : State), Fetches s (.nop w) → ∃ t, step s = .next t ∧ t.started = true ∧ t.pc = s.pc + 2 ∧
    t.DT.toNat = s.DT.toNat - 1 ∧ t.ST.toNat = s.ST.toNat - 1 ∧ OnlyChanges [] [.pc, .DT, .ST, .started, .rand] s t

/-- R90. -/
def Obligations.JumpSetsPc : Prop :=
  Encodes 0xF000 0x1000 (fun w => .jp (fieldNNN w)) ∧
  ∀ (nnn : Addr) (s : State), ∃ t, exec (.jp nnn) s = .next t ∧ t.pc.toNat = nnn.toNat ∧ OnlyChanges [] [.pc] s t

/-- R91: CALL pushes the advanced pc and jumps; on a full stack it raises STACK_OVERFLOW (the spec's decision D2). -/
def Obligations.CallPushesReturnAddress : Prop :=
  Encodes 0xF000 0x2000 (fun w => .call (fieldNNN w)) ∧
  ∀ (nnn : Addr) (s : State),
    (∀ h : s.sp.val < 16, ∃ t, exec (.call nnn) s = .next t ∧ t.pc.toNat = nnn.toNat ∧ t.sp.val = s.sp.val + 1 ∧
      t.stack[s.sp.val] = s.pc ∧ (∀ k : Fin 16, k.val ≠ s.sp.val → t.stack[k] = s.stack[k]) ∧
      OnlyChanges [] [.pc, .sp, .stack] s t) ∧
    (s.sp.val = 16 → exec (.call nnn) s = .next { s with fault := .stackOverflow, started := true })

/-- R89: RET pops into pc and keeps the slot; on an empty stack it raises STACK_UNDERFLOW (the spec's decision D3). -/
def Obligations.RetPopsReturnAddress : Prop :=
  Encodes 0xF00F 0x000E (fun _ => .ret) ∧
  ∀ s : State,
    (∀ k : Fin 16, s.sp.val = k.val + 1 → ∃ t, exec .ret s = .next t ∧ t.pc = s.stack[k] ∧ t.sp.val = k.val ∧
      OnlyChanges [] [.pc, .sp] s t) ∧
    (s.sp.val = 0 → exec .ret s = .next { s with fault := .stackUnderflow, started := true })

/-- R91: "`call addr` followed immediately by `return` restores the program counter to the value it held immediately
after the call instruction's own fetch-advance", whatever pc the return is fetched at. -/
def Obligations.CallThenRetReturns : Prop :=
  ∀ (nnn : Addr) (s : State), s.sp.val < 16 → ∃ t, exec (.call nnn) s = .next t ∧
    ∀ p : Word, ∃ u, exec .ret { t with pc := p } = .next u ∧ u.pc = s.pc ∧ u.sp = s.sp ∧
      (∀ k : Fin 16, k.val ≠ s.sp.val → u.stack[k] = s.stack[k]) ∧ OnlyChanges [] [.stack] s u

/-- R92, R93: a satisfied skip adds 2 to the advanced pc. -/
def Obligations.SkipOnByte : Prop :=
  Encodes 0xF000 0x3000 (fun w => .seVxByte (fieldX w) (fieldNN w)) ∧
  Encodes 0xF000 0x4000 (fun w => .sneVxByte (fieldX w) (fieldNN w)) ∧
  ∀ (x : Reg) (nn : Byte) (s : State),
    (∃ t, exec (.seVxByte x nn) s = .next t ∧ t.pc = (if s.getV x = nn then s.pc + 2 else s.pc) ∧
      OnlyChanges [] [.pc] s t) ∧
    (∃ t, exec (.sneVxByte x nn) s = .next t ∧ t.pc = (if s.getV x = nn then s.pc else s.pc + 2) ∧
      OnlyChanges [] [.pc] s t)

/-- R94, R95: the low nibble of the word is ignored. -/
def Obligations.SkipOnRegisters : Prop :=
  Encodes 0xF000 0x5000 (fun w => .seVxVy (fieldX w) (fieldY w)) ∧
  Encodes 0xF000 0x9000 (fun w => .sneVxVy (fieldX w) (fieldY w)) ∧
  ∀ (x y : Reg) (s : State),
    (∃ t, exec (.seVxVy x y) s = .next t ∧ t.pc = (if s.getV x = s.getV y then s.pc + 2 else s.pc) ∧
      OnlyChanges [] [.pc] s t) ∧
    (∃ t, exec (.sneVxVy x y) s = .next t ∧ t.pc = (if s.getV x = s.getV y then s.pc else s.pc + 2) ∧
      OnlyChanges [] [.pc] s t)

/-- R96: the sum is not masked to 12 bits and never wraps (the spec's decision D5). -/
def Obligations.JumpAddsV0 : Prop :=
  Encodes 0xF000 0xB000 (fun w => .jpV0 (fieldNNN w)) ∧
  ∀ (nnn : Addr) (s : State), ∃ t, exec (.jpV0 nnn) s = .next t ∧
    t.pc.toNat = (s.getV 0).toNat + nnn.toNat ∧ OnlyChanges [] [.pc] s t

/-! ### Loads and the ALU -/

/-- R98. -/
def Obligations.LoadByte : Prop :=
  Encodes 0xF000 0x6000 (fun w => .ldVxByte (fieldX w) (fieldNN w)) ∧
  ∀ (x : Reg) (nn : Byte) (s : State), ∃ t, exec (.ldVxByte x nn) s = .next t ∧ t.getV x = nn ∧ OnlyChanges [x] [] s t

/-- R99: modulo 256, and VF changes only where it is the destination. -/
def Obligations.AddByteWithoutFlag : Prop :=
  Encodes 0xF000 0x7000 (fun w => .addVxByte (fieldX w) (fieldNN w)) ∧
  ∀ (x : Reg) (nn : Byte) (s : State), ∃ t, exec (.addVxByte x nn) s = .next t ∧
    (t.getV x).toNat = ((s.getV x).toNat + nn.toNat) % 256 ∧ OnlyChanges [x] [] s t

/-- R100 (the spec's decision D13). -/
def Obligations.MoveRegister : Prop :=
  Encodes 0xF00F 0x8000 (fun w => .ldVxVy (fieldX w) (fieldY w)) ∧
  ∀ (x y : Reg) (s : State), ∃ t, exec (.ldVxVy x y) s = .next t ∧ t.getV x = s.getV y ∧ OnlyChanges [x] [] s t

/-- R101, R102, R103: bit by bit, with no flag (the spec's decision D12). -/
def Obligations.LogicBitByBit : Prop :=
  Encodes 0xF00F 0x8001 (fun w => .orVxVy (fieldX w) (fieldY w)) ∧
  Encodes 0xF00F 0x8002 (fun w => .andVxVy (fieldX w) (fieldY w)) ∧
  Encodes 0xF00F 0x8003 (fun w => .xorVxVy (fieldX w) (fieldY w)) ∧
  ∀ (x y : Reg) (s : State),
    (∃ t, exec (.orVxVy x y) s = .next t ∧
      (∀ k, k < 8 → (t.getV x).getLsbD k = ((s.getV x).getLsbD k || (s.getV y).getLsbD k)) ∧ OnlyChanges [x] [] s t) ∧
    (∃ t, exec (.andVxVy x y) s = .next t ∧
      (∀ k, k < 8 → (t.getV x).getLsbD k = ((s.getV x).getLsbD k && (s.getV y).getLsbD k)) ∧ OnlyChanges [x] [] s t) ∧
    (∃ t, exec (.xorVxVy x y) s = .next t ∧
      (∀ k, k < 8 → (t.getV x).getLsbD k = ((s.getV x).getLsbD k != (s.getV y).getLsbD k)) ∧ OnlyChanges [x] [] s t)

/-- R104: the sum modulo 256 and the carry; with x = 15 the flag wins. -/
def Obligations.AddRegistersWithCarry : Prop :=
  Encodes 0xF00F 0x8004 (fun w => .addVxVy (fieldX w) (fieldY w)) ∧
  ∀ (x y : Reg) (s : State), ∃ t, exec (.addVxVy x y) s = .next t ∧
    (x ≠ VF → (t.getV x).toNat = ((s.getV x).toNat + (s.getV y).toNat) % 256) ∧
    t.getV VF = (if (s.getV x).toNat + (s.getV y).toNat > 255 then 1 else 0) ∧ OnlyChanges [x, VF] [] s t

/-- R105: the difference modulo 256 and the strict no-borrow flag. -/
def Obligations.SubRegistersStrictNoBorrow : Prop :=
  Encodes 0xF00F 0x8005 (fun w => .sub (fieldX w) (fieldY w)) ∧
  ∀ (x y : Reg) (s : State), ∃ t, exec (.sub x y) s = .next t ∧
    (x ≠ VF → ((t.getV x).toNat : Int) = ((s.getV x).toNat - (s.getV y).toNat : Int) % 256) ∧
    t.getV VF = (if (s.getV x).toNat > (s.getV y).toNat then 1 else 0) ∧ OnlyChanges [x, VF] [] s t

/-- R106: V[x] halved, VF its old lowest bit; y is ignored (the spec's decision D11). -/
def Obligations.ShiftRightOne : Prop :=
  Encodes 0xF00F 0x8006 (fun w => .shr (fieldX w) (fieldY w)) ∧
  ∀ (x y : Reg) (s : State), ∃ t, exec (.shr x y) s = .next t ∧
    (x ≠ VF → (t.getV x).toNat = (s.getV x).toNat / 2) ∧ (t.getV VF).toNat = (s.getV x).toNat % 2 ∧
    OnlyChanges [x, VF] [] s t

/-- R107: V[y] is the minuend (the spec's decision D10). -/
def Obligations.SubnRegistersStrictNoBorrow : Prop :=
  Encodes 0xF00F 0x8007 (fun w => .subn (fieldX w) (fieldY w)) ∧
  ∀ (x y : Reg) (s : State), ∃ t, exec (.subn x y) s = .next t ∧
    (x ≠ VF → ((t.getV x).toNat : Int) = ((s.getV y).toNat - (s.getV x).toNat : Int) % 256) ∧
    t.getV VF = (if (s.getV y).toNat > (s.getV x).toNat then 1 else 0) ∧ OnlyChanges [x, VF] [] s t

/-- R108: V[x] doubled modulo 256, VF its old highest bit as exactly 0 or 1; y is ignored (the spec's decision D11). -/
def Obligations.ShiftLeftOne : Prop :=
  Encodes 0xF00F 0x800E (fun w => .shl (fieldX w) (fieldY w)) ∧
  ∀ (x y : Reg) (s : State), ∃ t, exec (.shl x y) s = .next t ∧
    (x ≠ VF → (t.getV x).toNat = 2 * (s.getV x).toNat % 256) ∧ (t.getV VF).toNat = (s.getV x).toNat / 128 ∧
    OnlyChanges [x, VF] [] s t

/-- R109: the step's random byte AND the mask. The byte is the driver's where it named one, else the free value at the
input's place in the source's sequence, whatever the place is (the spec's decision D23; log 4). -/
def Obligations.RandomAndMask : Prop :=
  Encodes 0xF000 0xC000 (fun w => .rnd (fieldX w) (fieldNN w)) ∧
  ∀ (x : Reg) (nn : Byte) (s : State), ∃ t, exec (.rnd x nn) s = .next t ∧
    (∀ b, s.rand.named = some b → t.getV x = b &&& nn) ∧
    (s.rand.named = none → t.getV x = Config.randomByte s.rand.place &&& nn) ∧
    (∀ k, nn.getLsbD k = false → (t.getV x).getLsbD k = false) ∧ OnlyChanges [x] [] s t

/-- Every operation that writes VF as a flag leaves it exactly 0 or 1, with x = 15 too, unless it faults (R21, R111, the
spec's decision D9). -/
def Obligations.FlagIsZeroOrOne : Prop :=
  ∀ (i : Instr) (s t : State), flagWriter i = true → s.fault = .none → exec i s = .next t → t.fault = .none →
    t.getV VF = 0 ∨ t.getV VF = 1

/-- A general register changes only where the operation names it as its destination, or is VF under one of the six flag
writers (R20, R21). -/
def Obligations.OnlyNamedRegistersChange : Prop :=
  ∀ (i : Instr) (s t : State) (r : Reg), exec i s = .next t → r ∉ destination i → ¬ (flagWriter i = true ∧ r = VF) →
    t.getV r = s.getV r

/-! ### Index register and memory -/

/-- R112. -/
def Obligations.LoadIndex : Prop :=
  Encodes 0xF000 0xA000 (fun w => .ldI (fieldNNN w)) ∧
  ∀ (nnn : Addr) (s : State), ∃ t, exec (.ldI nnn) s = .next t ∧ t.I.toNat = nnn.toNat ∧ OnlyChanges [] [.I] s t

/-- R113: modulo 65536, no flag (the spec's decision D27). -/
def Obligations.AddToIndex : Prop :=
  Encodes 0xF0FF 0xF01E (fun w => .addI (fieldX w)) ∧
  ∀ (x : Reg) (s : State), ∃ t, exec (.addI x) s = .next t ∧
    t.I.toNat = (s.I.toNat + (s.getV x).toNat) % 65536 ∧ OnlyChanges [] [.I] s t

/-- R114: the whole register, not its low nibble. -/
def Obligations.LoadGlyphAddress : Prop :=
  Encodes 0xF0FF 0xF029 (fun w => .ldF (fieldX w)) ∧
  ∀ (x : Reg) (s : State), ∃ t, exec (.ldF x) s = .next t ∧
    t.I.toNat = 0x50 + 5 * (s.getV x).toNat ∧ OnlyChanges [] [.I] s t

/-- R115: three digits at I, hundreds first, or DATA_OUT_OF_RANGE with nothing stored (the spec's decision D6). The
memory is canonical, as every step keeps it (StepKeepsInvariant). -/
def Obligations.StoreBcdDigits : Prop :=
  Encodes 0xF0FF 0xF033 (fun w => .ldB (fieldX w)) ∧
  ∀ (x : Reg) (s : State), Memory.wf s.mem = true →
    (s.I.toNat + 2 ≤ 0xFFF → ∃ t, exec (.ldB x) s = .next t ∧
      (t.readByte s.I.toNat).toNat = (s.getV x).toNat / 100 ∧
      (t.readByte (s.I.toNat + 1)).toNat = (s.getV x).toNat / 10 % 10 ∧
      (t.readByte (s.I.toNat + 2)).toNat = (s.getV x).toNat % 10 ∧
      (∀ a, a < s.I.toNat ∨ s.I.toNat + 2 < a → t.readByte a = s.readByte a) ∧ OnlyChanges [] [.mem] s t) ∧
    (0xFFF < s.I.toNat + 2 → exec (.ldB x) s = .next { s with fault := .dataOutOfRange, started := true })

/-- R116: V0 to V[x] at I on, inclusive, with I unchanged (the spec's decision D16), or DATA_OUT_OF_RANGE with nothing
stored. -/
def Obligations.StoreRegisterBlock : Prop :=
  Encodes 0xF0FF 0xF055 (fun w => .stRegs (fieldX w)) ∧
  ∀ (x : Reg) (s : State), Memory.wf s.mem = true →
    (s.I.toNat + x.toNat ≤ 0xFFF → ∃ t, exec (.stRegs x) s = .next t ∧
      (∀ r : Reg, r.toNat ≤ x.toNat → t.readByte (s.I.toNat + r.toNat) = s.getV r) ∧
      (∀ a, a < s.I.toNat ∨ s.I.toNat + x.toNat < a → t.readByte a = s.readByte a) ∧ OnlyChanges [] [.mem] s t) ∧
    (0xFFF < s.I.toNat + x.toNat → exec (.stRegs x) s = .next { s with fault := .dataOutOfRange, started := true })

/-- R117: V0 to V[x] from I on, inclusive, with I unchanged (the spec's decision D16), or DATA_OUT_OF_RANGE with no
register written. -/
def Obligations.LoadRegisterBlock : Prop :=
  Encodes 0xF0FF 0xF065 (fun w => .ldRegs (fieldX w)) ∧
  ∀ (x : Reg) (s : State),
    (s.I.toNat + x.toNat ≤ 0xFFF → ∃ t, exec (.ldRegs x) s = .next t ∧
      (∀ r : Reg, r.toNat ≤ x.toNat → t.getV r = s.readByte (s.I.toNat + r.toNat)) ∧
      (∀ r : Reg, x.toNat < r.toNat → t.getV r = s.getV r) ∧ (∀ p : Part, p.same s t)) ∧
    (0xFFF < s.I.toNat + x.toNat → exec (.ldRegs x) s = .next { s with fault := .dataOutOfRange, started := true })

/-- R117: "Store-registers then load-registers ... round-trips all registers 0..x unchanged, for all x in 0..15",
whatever the registers hold in between. -/
def Obligations.StoreThenLoadRoundTrips : Prop :=
  ∀ (x : Reg) (s : State), Memory.wf s.mem = true → s.I.toNat + x.toNat ≤ 0xFFF →
    ∃ t, exec (.stRegs x) s = .next t ∧ ∀ u : State, u.mem = t.mem → u.I = s.I →
      ∃ v, exec (.ldRegs x) u = .next v ∧ ∀ r : Reg, r.toNat ≤ x.toNat → v.getV r = s.getV r

/-- R60: what a store leaves in memory is what the next fetch there reads. -/
def Obligations.FetchSeesStores : Prop :=
  ∀ (x r q : Reg) (s : State), Memory.wf s.mem = true → s.I.toNat + x.toNat ≤ 0xFFF → q.toNat = r.toNat + 1 →
    q.toNat ≤ x.toNat → ∃ t, exec (.stRegs x) s = .next t ∧ ∀ u : State, u.mem = t.mem →
      u.pc.toNat = s.I.toNat + r.toNat → u.fetchWord = some (wordOfBytes (s.getV r) (s.getV q))

/-! ### Display -/

/-- R120. -/
def Obligations.ClearScreen : Prop :=
  Encodes 0xF00F 0x0000 (fun _ => .cls) ∧
  ∀ s : State, ∃ t, exec .cls s = .next t ∧ (∀ a, t.pixel a = false) ∧ OnlyChanges [] [.fb] s t

/-- R122: one wrap of the linear address. Past the right edge a sprite goes on in the next row, past the bottom at the
top, past the bottom-right corner in row 0; no address is ever outside the framebuffer. -/
def Obligations.SpriteAddressWrapsLinearly : Prop :=
  ∀ x0 y0 r c : Nat, x0 < 64 → y0 < 32 → r < 15 → c < 8 →
    (pixelAddr x0 y0 r c).val = ((y0 + r) * 64 + (x0 + c)) % 2048 ∧ (pixelAddr x0 y0 r c).val < 2048 ∧
    (x0 + c < 64 → y0 + r < 32 → (pixelAddr x0 y0 r c).val = (y0 + r) * 64 + (x0 + c)) ∧
    (64 ≤ x0 + c → y0 + r < 31 → (pixelAddr x0 y0 r c).val = (y0 + r + 1) * 64 + (x0 + c - 64)) ∧
    (x0 + c < 64 → 32 ≤ y0 + r → (pixelAddr x0 y0 r c).val = (y0 + r - 32) * 64 + (x0 + c)) ∧
    (64 ≤ x0 + c → y0 + r = 31 → (pixelAddr x0 y0 r c).val = x0 + c - 64) ∧
    (64 ≤ x0 + c → 32 ≤ y0 + r → (pixelAddr x0 y0 r c).val = (y0 + r - 32 + 1) * 64 + (x0 + c - 64))

/-- R121 to R124: DRW toggles exactly the cells that a set sprite bit covers, VF is 1 iff one of them was on, and
nothing else changes; out of range it raises DATA_OUT_OF_RANGE with nothing drawn (the spec's decisions D17, D31). -/
def Obligations.DrawTogglesCoveredCells : Prop :=
  Encodes 0xF000 0xD000 (fun w => .drw (fieldX w) (fieldY w) (fieldN w)) ∧
  ∀ (x y : Reg) (n : Nibble) (s : State),
    (n.toNat = 0 ∨ s.I.toNat + n.toNat - 1 ≤ 0xFFF → ∃ t, exec (.drw x y n) s = .next t ∧
      (∀ a, SpriteCovers s s.I.toNat ((s.getV x).toNat % 64) ((s.getV y).toNat % 32) n.toNat a →
        t.pixel a = !s.pixel a) ∧
      (∀ a, ¬ SpriteCovers s s.I.toNat ((s.getV x).toNat % 64) ((s.getV y).toNat % 32) n.toNat a →
        t.pixel a = s.pixel a) ∧
      (t.getV VF = 0 ∨ t.getV VF = 1) ∧
      (t.getV VF = 1 ↔ ∃ a, SpriteCovers s s.I.toNat ((s.getV x).toNat % 64) ((s.getV y).toNat % 32) n.toNat a ∧
        s.pixel a = true) ∧ OnlyChanges [VF] [.fb] s t) ∧
    (0 < n.toNat → 0xFFF < s.I.toNat + n.toNat - 1 →
      exec (.drw x y n) s = .next { s with fault := .dataOutOfRange, started := true })

/-- R125: drawing the same sprite at the same place twice restores the framebuffer exactly, and the second draw sets VF
iff the first turned a cell on. `u` is any state with the first draw's screen and the same sprite and coordinates, so
that x = 15 and y = 15 are covered too. -/
def Obligations.DrawTwiceRestoresScreen : Prop :=
  ∀ (x y : Reg) (n : Nibble) (s : State), n.toNat = 0 ∨ s.I.toNat + n.toNat - 1 ≤ 0xFFF →
    ∃ t, exec (.drw x y n) s = .next t ∧ ∀ u : State, u.fb = t.fb → u.I = s.I → (∀ a, u.readByte a = s.readByte a) →
      u.getV x = s.getV x → u.getV y = s.getV y → ∃ v, exec (.drw x y n) u = .next v ∧ v.fb = s.fb ∧
        (v.getV VF = 1 ↔ ∃ a, SpriteCovers s s.I.toNat ((s.getV x).toNat % 64) ((s.getV y).toNat % 32) n.toNat a ∧
          s.pixel a = false)

/-! ### Timers and keys -/

/-- R128: the register gets DT as the previous step left it; the step's tick follows. -/
def Obligations.ReadDelayTimer : Prop :=
  Encodes 0xF0FF 0xF007 (fun w => .ldVxDt (fieldX w)) ∧
  (∀ (x : Reg) (s : State), ∃ t, exec (.ldVxDt x) s = .next t ∧ t.getV x = s.DT ∧ OnlyChanges [x] [] s t) ∧
  ∀ (x : Reg) (s : State), Fetches s (.ldVxDt x) → ∃ t, step s = .next t ∧ t.getV x = s.DT ∧
    t.DT.toNat = s.DT.toNat - 1

/-- R129: DT is set, and the same step's tick takes one off (R84). -/
def Obligations.SetDelayTimer : Prop :=
  Encodes 0xF0FF 0xF015 (fun w => .ldDtVx (fieldX w)) ∧
  (∀ (x : Reg) (s : State), ∃ t, exec (.ldDtVx x) s = .next t ∧ t.DT = s.getV x ∧ OnlyChanges [] [.DT] s t) ∧
  ∀ (x : Reg) (s : State), Fetches s (.ldDtVx x) → ∃ t, step s = .next t ∧ t.DT.toNat = (s.getV x).toNat - 1

/-- R130: ST is set, and the same step's tick takes one off, so that sound_active is seen only from 2 on
(R127, the spec's decision D22). -/
def Obligations.SetSoundTimer : Prop :=
  Encodes 0xF0FF 0xF018 (fun w => .ldStVx (fieldX w)) ∧
  (∀ (x : Reg) (s : State), ∃ t, exec (.ldStVx x) s = .next t ∧ t.ST = s.getV x ∧ OnlyChanges [] [.ST] s t) ∧
  ∀ (x : Reg) (s : State), Fetches s (.ldStVx x) → ∃ t, step s = .next t ∧ t.ST.toNat = (s.getV x).toNat - 1 ∧
    (t.soundActive = true ↔ 2 ≤ (s.getV x).toNat)

/-- R131 to R133: a value of 16 or more is "not pressed" (the spec's decision D4); SKNP is SKP's complement. -/
def Obligations.SkipOnKey : Prop :=
  Encodes 0xF00F 0xE00E (fun w => .skp (fieldX w)) ∧ Encodes 0xF00F 0xE001 (fun w => .sknp (fieldX w)) ∧
  ∀ (x : Reg) (s : State),
    (∃ t, exec (.skp x) s = .next t ∧ OnlyChanges [] [.pc] s t ∧
      (∀ k : Fin 16, (s.getV x).toNat = k.val → t.pc = if s.keys[k] = true then s.pc + 2 else s.pc) ∧
      (16 ≤ (s.getV x).toNat → t.pc = s.pc)) ∧
    (∃ t, exec (.sknp x) s = .next t ∧ OnlyChanges [] [.pc] s t ∧
      (∀ k : Fin 16, (s.getV x).toNat = k.val → t.pc = if s.keys[k] = true then s.pc else s.pc + 2) ∧
      (16 ≤ (s.getV x).toNat → t.pc = s.pc + 2))

/-- R134: the lowest pressed key's index, or the advance undone and nothing else (the spec's decision D25). -/
def Obligations.KeyWaitTakesLowestKey : Prop :=
  Encodes 0xF0FF 0xF00A (fun w => .ldVxK (fieldX w)) ∧
  ∀ (x : Reg) (s : State),
    (∀ k : Fin 16, s.keys[k] = true → (∀ j : Fin 16, j.val < k.val → s.keys[j] = false) →
      ∃ t, exec (.ldVxK x) s = .next t ∧ (t.getV x).toNat = k.val ∧ OnlyChanges [x] [] s t) ∧
    ((∀ k : Fin 16, s.keys[k] = false) →
      ∃ t, exec (.ldVxK x) s = .next t ∧ t.pc = s.pc - 2 ∧ OnlyChanges [] [.pc] s t)

/-- R135: a waiting step does not advance the pc, but it is a whole step and ticks the timers; once key k is the lowest
pressed, the register is k and the pc goes on. -/
def Obligations.KeyWaitHoldsPc : Prop :=
  ∀ (x : Reg) (s : State), Fetches s (.ldVxK x) →
    ((∀ k : Fin 16, s.keys[k] = false) → ∃ t, step s = .next t ∧ t.pc = s.pc ∧ t.DT.toNat = s.DT.toNat - 1 ∧
      t.ST.toNat = s.ST.toNat - 1 ∧ OnlyChanges [] [.DT, .ST, .started, .rand] s t) ∧
    (∀ k : Fin 16, s.keys[k] = true → (∀ j : Fin 16, j.val < k.val → s.keys[j] = false) →
      ∃ t, step s = .next t ∧ t.pc = s.pc + 2 ∧ (t.getV x).toNat = k.val)

/-! ### The whole machine -/

/-- R26 to R30, R35, R51, R125: the writers of each part of the state beside the registers and the pc; nothing writes
the step's inputs (the spec's decisions D2, D16, D22, D23, D28, D29). -/
def Obligations.StatePartsHaveNamedWriters : Prop :=
  ∀ (i : Instr) (s t : State), exec i s = .next t →
    (t.sp ≠ s.sp → i = .ret ∨ ∃ nnn, i = .call nnn) ∧ (t.stack ≠ s.stack → ∃ nnn, i = .call nnn) ∧
    (t.I ≠ s.I → (∃ nnn, i = .ldI nnn) ∨ (∃ x, i = .addI x) ∨ ∃ x, i = .ldF x) ∧
    (t.DT ≠ s.DT → ∃ x, i = .ldDtVx x) ∧ (t.ST ≠ s.ST → ∃ x, i = .ldStVx x) ∧
    (t.mem ≠ s.mem → (∃ x, i = .ldB x) ∨ ∃ x, i = .stRegs x) ∧
    (t.fb ≠ s.fb → i = .cls ∨ ∃ x y n, i = .drw x y n) ∧
    t.keys = s.keys ∧ t.rand = s.rand

/-- R19, R35 to R37, R83: what Execute and the step make of the architectural state is settled by that state, by the
keypad where the operation is SKP, SKNP or LD Vx, K, and by the one random byte where it is RND. So `step` is `archStep`,
the transition of R19's eleven-field tuple with `Step(keys, rand)`'s inputs as arguments (R79); beside it a step only
keeps the keypad and, unless it faults, turns to the source's next byte (log 3, log 4). -/
def Obligations.OnlyTupleAndInputsDecide : Prop :=
  (∀ (i : Instr) (s u t : State), s.toArchState = u.toArchState → (readsKeys i = true → s.keys = u.keys) →
    (readsRandom i = true → s.randomByte = u.randomByte) → exec i s = .next t →
    ∃ v, exec i u = .next v ∧ v.toArchState = t.toArchState) ∧
  (∀ s u t : State, s.toArchState = u.toArchState → s.keys = u.keys → s.randomByte = u.randomByte → step s = .next t →
    ∃ v, step u = .next v ∧ v.toArchState = t.toArchState ∧ v.keys = t.keys) ∧
  (∀ s : State, archAnswer (step s) = archStep s.keys s.randomByte s.toArchState) ∧
  ∀ s t : State, step s = .next t → t.keys = s.keys ∧ (t.fault = .none → t.rand = s.rand.following)

/-- R166: at an idle end every further step repeats the jump and changes only DT and ST, each going down by one until it
is 0 (the spec's decision D32); `started` and the next step's input `rand` apart (log 4). -/
def Obligations.IdleEndOnlyTicks : Prop :=
  ∀ s : State, s.idleEnd → ∃ t, step s = .next t ∧ t.idleEnd ∧ t.DT.toNat = s.DT.toNat - 1 ∧
    t.ST.toNat = s.ST.toNat - 1 ∧ OnlyChanges [] [.DT, .ST, .started, .rand] s t

/-- R156, R157: before the first step an image of at most 3584 bytes is copied to 0x200 on and nothing else changes;
else the port answers error and changes nothing (the spec's decision D24). -/
def Obligations.LoadCopiesImageOrRefuses : Prop :=
  ∀ (bytes : List Byte) (s : State),
    (s.started = false → bytes.length ≤ 3584 → Memory.wf s.mem = true → ∃ t, s.load bytes = (.ok, t) ∧
      (∀ k (h : k < bytes.length), t.readByte (0x200 + k) = bytes[k]) ∧
      (∀ a, a < 0x200 ∨ 0x200 + bytes.length ≤ a → t.readByte a = s.readByte a) ∧ OnlyChanges [] [.mem] s t) ∧
    (s.started = true ∨ 3584 < bytes.length → s.load bytes = (.error, s))
end

