-- ==== Sys2Proof/Laws/Decode.lean ====
section
/-! SUPPORT. The fields of packed words and of masked words, for the proofs about decoding. -/

namespace Sys2Proof.Laws

@[simp] theorem fieldC_packA (c : BitVec 4) (nnn : Addr) : fieldC (packA c nnn) = c := by
  apply BitVec.eq_of_getLsbD_eq; intro i hi
  interval_cases i <;> simp [fieldC, packA]

@[simp] theorem fieldNNN_packA (c : BitVec 4) (nnn : Addr) : fieldNNN (packA c nnn) = nnn := by
  apply BitVec.eq_of_getLsbD_eq; intro i hi
  interval_cases i <;> simp [fieldNNN, packA]

@[simp] theorem fieldC_packXB (c : BitVec 4) (x : Reg) (nn : Byte) : fieldC (packXB c x nn) = c := by
  apply BitVec.eq_of_getLsbD_eq; intro i hi
  interval_cases i <;> simp [fieldC, packXB]

@[simp] theorem fieldX_packXB (c : BitVec 4) (x : Reg) (nn : Byte) : fieldX (packXB c x nn) = x := by
  apply BitVec.eq_of_getLsbD_eq; intro i hi
  interval_cases i <;> simp [fieldX, packXB]

@[simp] theorem fieldNN_packXB (c : BitVec 4) (x : Reg) (nn : Byte) : fieldNN (packXB c x nn) = nn := by
  apply BitVec.eq_of_getLsbD_eq; intro i hi
  interval_cases i <;> simp [fieldNN, packXB]

/-- The nibble below a byte immediate is the byte's own low nibble: where class E looks for its key (R70). -/
theorem fieldN_packXB (c : BitVec 4) (x : Reg) (nn : Byte) : fieldN (packXB c x nn) = nn.extractLsb' 0 4 := by
  apply BitVec.eq_of_getLsbD_eq; intro i hi
  interval_cases i <;> simp [fieldN, packXB]

@[simp] theorem fieldC_packXYN (c : BitVec 4) (x y : Reg) (n : Nibble) : fieldC (packXYN c x y n) = c := by
  apply BitVec.eq_of_getLsbD_eq; intro i hi
  interval_cases i <;> simp [fieldC, packXYN]

@[simp] theorem fieldX_packXYN (c : BitVec 4) (x y : Reg) (n : Nibble) : fieldX (packXYN c x y n) = x := by
  apply BitVec.eq_of_getLsbD_eq; intro i hi
  interval_cases i <;> simp [fieldX, packXYN]

@[simp] theorem fieldY_packXYN (c : BitVec 4) (x y : Reg) (n : Nibble) : fieldY (packXYN c x y n) = y := by
  apply BitVec.eq_of_getLsbD_eq; intro i hi
  interval_cases i <;> simp [fieldY, packXYN]

@[simp] theorem fieldN_packXYN (c : BitVec 4) (x y : Reg) (n : Nibble) : fieldN (packXYN c x y n) = n := by
  apply BitVec.eq_of_getLsbD_eq; intro i hi
  interval_cases i <;> simp [fieldN, packXYN]

/-- A word in memory order gives the word back (R48). -/
theorem wordOfBytes_highByte_lowByte (w : Word) : wordOfBytes (highByte w) (lowByte w) = w := by
  apply BitVec.eq_of_getLsbD_eq; intro i hi
  interval_cases i <;> simp [wordOfBytes, highByte, lowByte]

/-- Big-endian combination as a number (R48). -/
theorem wordOfBytes_toNat (hi lo : Byte) : (wordOfBytes hi lo).toNat = hi.toNat * 256 + lo.toNat := by
  have hl := lo.isLt
  have hh := hi.isLt
  rw [wordOfBytes, BitVec.toNat_or, BitVec.toNat_shiftLeft, BitVec.toNat_setWidth, BitVec.toNat_setWidth,
    Nat.mod_eq_of_lt (a := hi.toNat) (by omega), Nat.mod_eq_of_lt (a := lo.toNat) (by omega), Nat.shiftLeft_eq,
    Nat.mod_eq_of_lt (by omega), Nat.mul_comm, ← Nat.two_pow_add_eq_or_of_lt hl]

/-- Decoding two bytes laid out high byte first is decoding the word. -/
theorem decodeBytes_of_word (w : Word) (rest : List Byte) :
    decodeBytes (highByte w :: lowByte w :: rest) = .ok (decode w, rest) := by
  simp [decodeBytes, wordOfBytes_highByte_lowByte]

/-! What a masked word says about the fields: the rows of the opcode table. -/

theorem fieldC_of_mask_class {w v : Word} (h : w &&& 0xF000#16 = v) : fieldC w = fieldC v := by
  subst h
  apply BitVec.eq_of_getLsbD_eq; intro i hi
  interval_cases i <;> simp [fieldC]

theorem fields_of_mask_nibble {w v : Word} (h : w &&& 0xF00F#16 = v) :
    fieldC w = fieldC v ∧ fieldN w = fieldN v := by
  subst h
  constructor <;> apply BitVec.eq_of_getLsbD_eq <;> intro i hi
  · interval_cases i <;> simp [fieldC]
  · interval_cases i <;> simp [fieldN]

theorem fields_of_mask_byte {w v : Word} (h : w &&& 0xF0FF#16 = v) :
    fieldC w = fieldC v ∧ fieldNN w = fieldNN v := by
  subst h
  constructor <;> apply BitVec.eq_of_getLsbD_eq <;> intro i hi
  · interval_cases i <;> simp [fieldC]
  · interval_cases i <;> simp [fieldNN]

/-! And back: the fields say what the masked word is. -/

theorem mask_class_of_fieldC (w : Word) : w &&& 0xF000#16 = packA (fieldC w) 0 := by
  apply BitVec.eq_of_getLsbD_eq; intro i hi
  interval_cases i <;> simp [fieldC, packA]

theorem mask_nibble_of_fields (w : Word) : w &&& 0xF00F#16 = packXYN (fieldC w) 0 0 (fieldN w) := by
  apply BitVec.eq_of_getLsbD_eq; intro i hi
  interval_cases i <;> simp [fieldC, fieldN, packXYN]

theorem mask_byte_of_fields (w : Word) : w &&& 0xF0FF#16 = packXB (fieldC w) 0 (fieldNN w) := by
  apply BitVec.eq_of_getLsbD_eq; intro i hi
  interval_cases i <;> simp [fieldC, fieldNN, packXB]

end Sys2Proof.Laws
end

