-- ==== Sys2Proof/Laws/Memory.lean ====
section
/-! SUPPORT. The laws of memory: a read after a write, everything else left alone, and the canonical form kept. -/

namespace Sys2Proof.Machine

/-- A write leaves every other address alone. -/
theorem Memory.read_write_of_ne (m : List Host.Cell) {a c : Nat} (v : Byte) (h : c ≠ a) :
    Memory.read (Memory.write m a v) c = Memory.read m c := by
  induction m with
  | nil => unfold Memory.write; split <;> simp [Memory.read, h]
  | cons p m ih =>
    obtain ⟨b, u⟩ := p
    unfold Memory.write
    split
    · split <;> simp [Memory.read, h]
    · split
      · next hab => subst hab; split <;> simp [Memory.read, h]
      · simp only [Memory.read]; split <;> simp_all

/-- Below the first listed address of a canonical memory every byte is at its reset contents. -/
theorem Memory.read_of_wfFrom_lt {lo : Nat} {m : List Host.Cell} (hm : Memory.wfFrom lo m = true) {a : Nat}
    (ha : a < lo) : Memory.read m a = Memory.blank a := by
  induction m generalizing lo with
  | nil => rfl
  | cons p m ih =>
    obtain ⟨b, u⟩ := p
    simp only [Memory.wfFrom, Bool.and_eq_true, decide_eq_true_eq] at hm
    rw [Memory.read, if_neg (by omega), ih hm.2 (by omega)]

theorem Memory.read_write_self_from {lo : Nat} {m : List Host.Cell} (hm : Memory.wfFrom lo m = true) (a : Nat)
    (v : Byte) : Memory.read (Memory.write m a v) a = v := by
  induction m generalizing lo with
  | nil => unfold Memory.write; split <;> simp_all [Memory.read]
  | cons p m ih =>
    obtain ⟨b, u⟩ := p
    simp only [Memory.wfFrom, Bool.and_eq_true, decide_eq_true_eq] at hm
    unfold Memory.write
    split
    · next hlt =>
      split
      · next hv => rw [Memory.read, if_neg (by omega), Memory.read_of_wfFrom_lt hm.2 (by omega), hv]
      · simp [Memory.read]
    · split
      · next hab =>
        subst hab
        split
        · next hv => rw [Memory.read_of_wfFrom_lt hm.2 (by omega), hv]
        · simp [Memory.read]
      · next hne => simp only [Memory.read]; rw [if_neg hne, ih hm.2]

/-- A read after a write to the same address gives the value written. -/
theorem Memory.read_write_self {m : List Host.Cell} (hm : Memory.wf m = true) (a : Nat) (v : Byte) :
    Memory.read (Memory.write m a v) a = v := Memory.read_write_self_from hm a v

theorem Memory.wfFrom_mono {lo lo' : Nat} {m : List Host.Cell} (h : lo' ≤ lo) (hm : Memory.wfFrom lo m = true) :
    Memory.wfFrom lo' m = true := by
  cases m with
  | nil => rfl
  | cons p m =>
    simp only [Memory.wfFrom, Bool.and_eq_true, decide_eq_true_eq] at hm ⊢
    exact ⟨⟨⟨by omega, hm.1.1.2⟩, hm.1.2⟩, hm.2⟩

theorem Memory.wfFrom_write {lo : Nat} {m : List Host.Cell} (hm : Memory.wfFrom lo m = true) {a : Nat} (v : Byte)
    (hlo : lo ≤ a) (ha : a < Config.MEMSIZE) : Memory.wfFrom lo (Memory.write m a v) = true := by
  induction m generalizing lo with
  | nil => unfold Memory.write; split <;> simp_all [Memory.wfFrom]
  | cons p m ih =>
    obtain ⟨b, u⟩ := p
    have hm' := hm
    simp only [Memory.wfFrom, Bool.and_eq_true, decide_eq_true_eq, bne_iff_ne] at hm
    unfold Memory.write
    split
    · split
      · exact hm'
      · simp only [Memory.wfFrom, Bool.and_eq_true, decide_eq_true_eq, bne_iff_ne]
        exact ⟨⟨⟨hlo, ha⟩, by assumption⟩, ⟨⟨by omega, hm.1.1.2⟩, hm.1.2⟩, hm.2⟩
    · split
      · next hab =>
        subst hab
        split
        · exact Memory.wfFrom_mono (by omega) hm.2
        · simp only [Memory.wfFrom, Bool.and_eq_true, decide_eq_true_eq, bne_iff_ne]
          exact ⟨⟨⟨hlo, ha⟩, by assumption⟩, hm.2⟩
      · simp only [Memory.wfFrom, Bool.and_eq_true, decide_eq_true_eq, bne_iff_ne]
        exact ⟨hm.1, ih hm.2 (by omega)⟩

/-- A write inside the address space keeps the canonical form. -/
theorem Memory.wf_write {m : List Host.Cell} (hm : Memory.wf m = true) {a : Nat} (v : Byte)
    (ha : a < Config.MEMSIZE) : Memory.wf (Memory.write m a v) = true :=
  Memory.wfFrom_write hm v (Nat.zero_le a) ha

/-- A block of writes inside the address space keeps the canonical form. -/
theorem Memory.wf_writeList {m : List Host.Cell} (hm : Memory.wf m = true) {a : Nat} (bs : List Byte)
    (ha : a + bs.length ≤ Config.MEMSIZE) : Memory.wf (Memory.writeList m a bs) = true := by
  induction bs generalizing m a with
  | nil => exact hm
  | cons b bs ih =>
    rw [List.length_cons] at ha
    exact ih (Memory.wf_write hm b (by omega)) (by omega)

/-- A block of writes leaves every address outside it alone. -/
theorem Memory.read_writeList_of_not_mem (m : List Host.Cell) {a c : Nat} (bs : List Byte)
    (hc : c < a ∨ a + bs.length ≤ c) : Memory.read (Memory.writeList m a bs) c = Memory.read m c := by
  induction bs generalizing m a with
  | nil => rfl
  | cons b bs ih =>
    rw [List.length_cons] at hc
    rw [Memory.writeList, ih _ (by omega), Memory.read_write_of_ne m b (by omega)]

/-- A block of writes leaves byte `k` of the block at address `a + k`. -/
theorem Memory.read_writeList {m : List Host.Cell} (hm : Memory.wf m = true) {a k : Nat} (bs : List Byte)
    (ha : a + bs.length ≤ Config.MEMSIZE) (hk : k < bs.length) :
    Memory.read (Memory.writeList m a bs) (a + k) = bs[k] := by
  induction bs generalizing m a k with
  | nil => simp at hk
  | cons b bs ih =>
    rw [List.length_cons] at ha
    rw [Memory.writeList]
    cases k with
    | zero => rw [Memory.read_writeList_of_not_mem _ bs (by omega)]; simpa using Memory.read_write_self hm a b
    | succ k =>
      have hk' : k < bs.length := by simpa using hk
      have := ih (Memory.wf_write hm b (a := a) (by omega)) (a := a + 1) (by omega) hk'
      simpa [Nat.add_assoc, Nat.add_comm 1 k] using this

/-- Reset memory lists nothing and is in canonical form. -/
theorem Memory.wf_reset : Memory.wf State.reset.mem = true := rfl

end Sys2Proof.Machine
end

