-- ==== Sys2Proof/Laws/State.lean ====
section
/-! SUPPORT. What each named update of the state does to each field, so that no later proof unfolds a record update. -/

namespace Sys2Proof.Machine

/-! ### setV -/

@[simp] theorem State.setV_I (s : State) (x : Reg) (v : Byte) : (s.setV x v).I = s.I := rfl
@[simp] theorem State.setV_pc (s : State) (x : Reg) (v : Byte) : (s.setV x v).pc = s.pc := rfl
@[simp] theorem State.setV_sp (s : State) (x : Reg) (v : Byte) : (s.setV x v).sp = s.sp := rfl
@[simp] theorem State.setV_stack (s : State) (x : Reg) (v : Byte) : (s.setV x v).stack = s.stack := rfl
@[simp] theorem State.setV_DT (s : State) (x : Reg) (v : Byte) : (s.setV x v).DT = s.DT := rfl
@[simp] theorem State.setV_ST (s : State) (x : Reg) (v : Byte) : (s.setV x v).ST = s.ST := rfl
@[simp] theorem State.setV_mem (s : State) (x : Reg) (v : Byte) : (s.setV x v).mem = s.mem := rfl
@[simp] theorem State.setV_fb (s : State) (x : Reg) (v : Byte) : (s.setV x v).fb = s.fb := rfl
@[simp] theorem State.setV_fault (s : State) (x : Reg) (v : Byte) : (s.setV x v).fault = s.fault := rfl
@[simp] theorem State.setV_started (s : State) (x : Reg) (v : Byte) : (s.setV x v).started = s.started := rfl
@[simp] theorem State.setV_keys (s : State) (x : Reg) (v : Byte) : (s.setV x v).keys = s.keys := rfl
@[simp] theorem State.setV_rand (s : State) (x : Reg) (v : Byte) : (s.setV x v).rand = s.rand := rfl
@[simp] theorem State.setV_readByte (s : State) (x : Reg) (v : Byte) (a : Nat) : (s.setV x v).readByte a = s.readByte a := rfl

/-! ### setI -/

@[simp] theorem State.setI_V (s : State) (v : Word) : (s.setI v).V = s.V := rfl
@[simp] theorem State.setI_I (s : State) (v : Word) : (s.setI v).I = v := rfl
@[simp] theorem State.setI_pc (s : State) (v : Word) : (s.setI v).pc = s.pc := rfl
@[simp] theorem State.setI_sp (s : State) (v : Word) : (s.setI v).sp = s.sp := rfl
@[simp] theorem State.setI_stack (s : State) (v : Word) : (s.setI v).stack = s.stack := rfl
@[simp] theorem State.setI_DT (s : State) (v : Word) : (s.setI v).DT = s.DT := rfl
@[simp] theorem State.setI_ST (s : State) (v : Word) : (s.setI v).ST = s.ST := rfl
@[simp] theorem State.setI_mem (s : State) (v : Word) : (s.setI v).mem = s.mem := rfl
@[simp] theorem State.setI_fb (s : State) (v : Word) : (s.setI v).fb = s.fb := rfl
@[simp] theorem State.setI_fault (s : State) (v : Word) : (s.setI v).fault = s.fault := rfl
@[simp] theorem State.setI_started (s : State) (v : Word) : (s.setI v).started = s.started := rfl
@[simp] theorem State.setI_keys (s : State) (v : Word) : (s.setI v).keys = s.keys := rfl
@[simp] theorem State.setI_rand (s : State) (v : Word) : (s.setI v).rand = s.rand := rfl
@[simp] theorem State.setI_getV (s : State) (v : Word) (r : Reg) : (s.setI v).getV r = s.getV r := rfl
@[simp] theorem State.setI_readByte (s : State) (v : Word) (a : Nat) : (s.setI v).readByte a = s.readByte a := rfl

/-! ### setPc -/

@[simp] theorem State.setPc_V (s : State) (v : Word) : (s.setPc v).V = s.V := rfl
@[simp] theorem State.setPc_I (s : State) (v : Word) : (s.setPc v).I = s.I := rfl
@[simp] theorem State.setPc_pc (s : State) (v : Word) : (s.setPc v).pc = v := rfl
@[simp] theorem State.setPc_sp (s : State) (v : Word) : (s.setPc v).sp = s.sp := rfl
@[simp] theorem State.setPc_stack (s : State) (v : Word) : (s.setPc v).stack = s.stack := rfl
@[simp] theorem State.setPc_DT (s : State) (v : Word) : (s.setPc v).DT = s.DT := rfl
@[simp] theorem State.setPc_ST (s : State) (v : Word) : (s.setPc v).ST = s.ST := rfl
@[simp] theorem State.setPc_mem (s : State) (v : Word) : (s.setPc v).mem = s.mem := rfl
@[simp] theorem State.setPc_fb (s : State) (v : Word) : (s.setPc v).fb = s.fb := rfl
@[simp] theorem State.setPc_fault (s : State) (v : Word) : (s.setPc v).fault = s.fault := rfl
@[simp] theorem State.setPc_started (s : State) (v : Word) : (s.setPc v).started = s.started := rfl
@[simp] theorem State.setPc_keys (s : State) (v : Word) : (s.setPc v).keys = s.keys := rfl
@[simp] theorem State.setPc_rand (s : State) (v : Word) : (s.setPc v).rand = s.rand := rfl
@[simp] theorem State.setPc_getV (s : State) (v : Word) (r : Reg) : (s.setPc v).getV r = s.getV r := rfl
@[simp] theorem State.setPc_readByte (s : State) (v : Word) (a : Nat) : (s.setPc v).readByte a = s.readByte a := rfl

/-! ### setDT -/

@[simp] theorem State.setDT_V (s : State) (v : Byte) : (s.setDT v).V = s.V := rfl
@[simp] theorem State.setDT_I (s : State) (v : Byte) : (s.setDT v).I = s.I := rfl
@[simp] theorem State.setDT_pc (s : State) (v : Byte) : (s.setDT v).pc = s.pc := rfl
@[simp] theorem State.setDT_sp (s : State) (v : Byte) : (s.setDT v).sp = s.sp := rfl
@[simp] theorem State.setDT_stack (s : State) (v : Byte) : (s.setDT v).stack = s.stack := rfl
@[simp] theorem State.setDT_DT (s : State) (v : Byte) : (s.setDT v).DT = v := rfl
@[simp] theorem State.setDT_ST (s : State) (v : Byte) : (s.setDT v).ST = s.ST := rfl
@[simp] theorem State.setDT_mem (s : State) (v : Byte) : (s.setDT v).mem = s.mem := rfl
@[simp] theorem State.setDT_fb (s : State) (v : Byte) : (s.setDT v).fb = s.fb := rfl
@[simp] theorem State.setDT_fault (s : State) (v : Byte) : (s.setDT v).fault = s.fault := rfl
@[simp] theorem State.setDT_started (s : State) (v : Byte) : (s.setDT v).started = s.started := rfl
@[simp] theorem State.setDT_keys (s : State) (v : Byte) : (s.setDT v).keys = s.keys := rfl
@[simp] theorem State.setDT_rand (s : State) (v : Byte) : (s.setDT v).rand = s.rand := rfl
@[simp] theorem State.setDT_getV (s : State) (v : Byte) (r : Reg) : (s.setDT v).getV r = s.getV r := rfl
@[simp] theorem State.setDT_readByte (s : State) (v : Byte) (a : Nat) : (s.setDT v).readByte a = s.readByte a := rfl

/-! ### setST -/

@[simp] theorem State.setST_V (s : State) (v : Byte) : (s.setST v).V = s.V := rfl
@[simp] theorem State.setST_I (s : State) (v : Byte) : (s.setST v).I = s.I := rfl
@[simp] theorem State.setST_pc (s : State) (v : Byte) : (s.setST v).pc = s.pc := rfl
@[simp] theorem State.setST_sp (s : State) (v : Byte) : (s.setST v).sp = s.sp := rfl
@[simp] theorem State.setST_stack (s : State) (v : Byte) : (s.setST v).stack = s.stack := rfl
@[simp] theorem State.setST_DT (s : State) (v : Byte) : (s.setST v).DT = s.DT := rfl
@[simp] theorem State.setST_ST (s : State) (v : Byte) : (s.setST v).ST = v := rfl
@[simp] theorem State.setST_mem (s : State) (v : Byte) : (s.setST v).mem = s.mem := rfl
@[simp] theorem State.setST_fb (s : State) (v : Byte) : (s.setST v).fb = s.fb := rfl
@[simp] theorem State.setST_fault (s : State) (v : Byte) : (s.setST v).fault = s.fault := rfl
@[simp] theorem State.setST_started (s : State) (v : Byte) : (s.setST v).started = s.started := rfl
@[simp] theorem State.setST_keys (s : State) (v : Byte) : (s.setST v).keys = s.keys := rfl
@[simp] theorem State.setST_rand (s : State) (v : Byte) : (s.setST v).rand = s.rand := rfl
@[simp] theorem State.setST_getV (s : State) (v : Byte) (r : Reg) : (s.setST v).getV r = s.getV r := rfl
@[simp] theorem State.setST_readByte (s : State) (v : Byte) (a : Nat) : (s.setST v).readByte a = s.readByte a := rfl

/-! ### setFb -/

@[simp] theorem State.setFb_V (s : State) (f : Framebuffer) : (s.setFb f).V = s.V := rfl
@[simp] theorem State.setFb_I (s : State) (f : Framebuffer) : (s.setFb f).I = s.I := rfl
@[simp] theorem State.setFb_pc (s : State) (f : Framebuffer) : (s.setFb f).pc = s.pc := rfl
@[simp] theorem State.setFb_sp (s : State) (f : Framebuffer) : (s.setFb f).sp = s.sp := rfl
@[simp] theorem State.setFb_stack (s : State) (f : Framebuffer) : (s.setFb f).stack = s.stack := rfl
@[simp] theorem State.setFb_DT (s : State) (f : Framebuffer) : (s.setFb f).DT = s.DT := rfl
@[simp] theorem State.setFb_ST (s : State) (f : Framebuffer) : (s.setFb f).ST = s.ST := rfl
@[simp] theorem State.setFb_mem (s : State) (f : Framebuffer) : (s.setFb f).mem = s.mem := rfl
@[simp] theorem State.setFb_fb (s : State) (f : Framebuffer) : (s.setFb f).fb = f := rfl
@[simp] theorem State.setFb_fault (s : State) (f : Framebuffer) : (s.setFb f).fault = s.fault := rfl
@[simp] theorem State.setFb_started (s : State) (f : Framebuffer) : (s.setFb f).started = s.started := rfl
@[simp] theorem State.setFb_keys (s : State) (f : Framebuffer) : (s.setFb f).keys = s.keys := rfl
@[simp] theorem State.setFb_rand (s : State) (f : Framebuffer) : (s.setFb f).rand = s.rand := rfl
@[simp] theorem State.setFb_getV (s : State) (f : Framebuffer) (r : Reg) : (s.setFb f).getV r = s.getV r := rfl
@[simp] theorem State.setFb_readByte (s : State) (f : Framebuffer) (a : Nat) : (s.setFb f).readByte a = s.readByte a := rfl

/-! ### withFault -/

@[simp] theorem State.withFault_V (s : State) (c : FaultCode) : (s.withFault c).V = s.V := rfl
@[simp] theorem State.withFault_I (s : State) (c : FaultCode) : (s.withFault c).I = s.I := rfl
@[simp] theorem State.withFault_pc (s : State) (c : FaultCode) : (s.withFault c).pc = s.pc := rfl
@[simp] theorem State.withFault_sp (s : State) (c : FaultCode) : (s.withFault c).sp = s.sp := rfl
@[simp] theorem State.withFault_stack (s : State) (c : FaultCode) : (s.withFault c).stack = s.stack := rfl
@[simp] theorem State.withFault_DT (s : State) (c : FaultCode) : (s.withFault c).DT = s.DT := rfl
@[simp] theorem State.withFault_ST (s : State) (c : FaultCode) : (s.withFault c).ST = s.ST := rfl
@[simp] theorem State.withFault_mem (s : State) (c : FaultCode) : (s.withFault c).mem = s.mem := rfl
@[simp] theorem State.withFault_fb (s : State) (c : FaultCode) : (s.withFault c).fb = s.fb := rfl
@[simp] theorem State.withFault_fault (s : State) (c : FaultCode) : (s.withFault c).fault = c := rfl
@[simp] theorem State.withFault_started (s : State) (c : FaultCode) : (s.withFault c).started = true := rfl
@[simp] theorem State.withFault_keys (s : State) (c : FaultCode) : (s.withFault c).keys = s.keys := rfl
@[simp] theorem State.withFault_rand (s : State) (c : FaultCode) : (s.withFault c).rand = s.rand := rfl
@[simp] theorem State.withFault_getV (s : State) (c : FaultCode) (r : Reg) : (s.withFault c).getV r = s.getV r := rfl
@[simp] theorem State.withFault_readByte (s : State) (c : FaultCode) (a : Nat) : (s.withFault c).readByte a = s.readByte a := rfl

/-! ### timerTick -/

@[simp] theorem State.timerTick_V (s : State) : s.timerTick.V = s.V := rfl
@[simp] theorem State.timerTick_I (s : State) : s.timerTick.I = s.I := rfl
@[simp] theorem State.timerTick_pc (s : State) : s.timerTick.pc = s.pc := rfl
@[simp] theorem State.timerTick_sp (s : State) : s.timerTick.sp = s.sp := rfl
@[simp] theorem State.timerTick_stack (s : State) : s.timerTick.stack = s.stack := rfl
@[simp] theorem State.timerTick_DT (s : State) : s.timerTick.DT = countDown s.DT := rfl
@[simp] theorem State.timerTick_ST (s : State) : s.timerTick.ST = countDown s.ST := rfl
@[simp] theorem State.timerTick_mem (s : State) : s.timerTick.mem = s.mem := rfl
@[simp] theorem State.timerTick_fb (s : State) : s.timerTick.fb = s.fb := rfl
@[simp] theorem State.timerTick_fault (s : State) : s.timerTick.fault = s.fault := rfl
@[simp] theorem State.timerTick_started (s : State) : s.timerTick.started = s.started := rfl
@[simp] theorem State.timerTick_keys (s : State) : s.timerTick.keys = s.keys := rfl
@[simp] theorem State.timerTick_rand (s : State) : s.timerTick.rand = s.rand := rfl
@[simp] theorem State.timerTick_getV (s : State) (r : Reg) : s.timerTick.getV r = s.getV r := rfl
@[simp] theorem State.timerTick_readByte (s : State) (a : Nat) : s.timerTick.readByte a = s.readByte a := rfl

/-! ### endStep -/

@[simp] theorem State.endStep_V (s : State) : s.endStep.V = s.V := rfl
@[simp] theorem State.endStep_I (s : State) : s.endStep.I = s.I := rfl
@[simp] theorem State.endStep_pc (s : State) : s.endStep.pc = s.pc := rfl
@[simp] theorem State.endStep_sp (s : State) : s.endStep.sp = s.sp := rfl
@[simp] theorem State.endStep_stack (s : State) : s.endStep.stack = s.stack := rfl
@[simp] theorem State.endStep_DT (s : State) : s.endStep.DT = countDown s.DT := rfl
@[simp] theorem State.endStep_ST (s : State) : s.endStep.ST = countDown s.ST := rfl
@[simp] theorem State.endStep_mem (s : State) : s.endStep.mem = s.mem := rfl
@[simp] theorem State.endStep_fb (s : State) : s.endStep.fb = s.fb := rfl
@[simp] theorem State.endStep_fault (s : State) : s.endStep.fault = s.fault := rfl
@[simp] theorem State.endStep_started (s : State) : s.endStep.started = s.started := rfl
@[simp] theorem State.endStep_keys (s : State) : s.endStep.keys = s.keys := rfl
@[simp] theorem State.endStep_rand (s : State) : s.endStep.rand = s.rand.following := rfl
@[simp] theorem State.endStep_getV (s : State) (r : Reg) : s.endStep.getV r = s.getV r := rfl
@[simp] theorem State.endStep_readByte (s : State) (a : Nat) : s.endStep.readByte a = s.readByte a := rfl

/-! ### beginExecute -/

@[simp] theorem State.beginExecute_V (s : State) : s.beginExecute.V = s.V := rfl
@[simp] theorem State.beginExecute_I (s : State) : s.beginExecute.I = s.I := rfl
@[simp] theorem State.beginExecute_pc (s : State) : s.beginExecute.pc = s.pc + 2 := rfl
@[simp] theorem State.beginExecute_sp (s : State) : s.beginExecute.sp = s.sp := rfl
@[simp] theorem State.beginExecute_stack (s : State) : s.beginExecute.stack = s.stack := rfl
@[simp] theorem State.beginExecute_DT (s : State) : s.beginExecute.DT = s.DT := rfl
@[simp] theorem State.beginExecute_ST (s : State) : s.beginExecute.ST = s.ST := rfl
@[simp] theorem State.beginExecute_mem (s : State) : s.beginExecute.mem = s.mem := rfl
@[simp] theorem State.beginExecute_fb (s : State) : s.beginExecute.fb = s.fb := rfl
@[simp] theorem State.beginExecute_fault (s : State) : s.beginExecute.fault = s.fault := rfl
@[simp] theorem State.beginExecute_started (s : State) : s.beginExecute.started = true := rfl
@[simp] theorem State.beginExecute_keys (s : State) : s.beginExecute.keys = s.keys := rfl
@[simp] theorem State.beginExecute_rand (s : State) : s.beginExecute.rand = s.rand := rfl
@[simp] theorem State.beginExecute_getV (s : State) (r : Reg) : s.beginExecute.getV r = s.getV r := rfl
@[simp] theorem State.beginExecute_readByte (s : State) (a : Nat) : s.beginExecute.readByte a = s.readByte a := rfl

/-! ### setKeys -/

@[simp] theorem State.setKeys_V (s : State) (k : Keypad) : (s.setKeys k).V = s.V := rfl
@[simp] theorem State.setKeys_I (s : State) (k : Keypad) : (s.setKeys k).I = s.I := rfl
@[simp] theorem State.setKeys_pc (s : State) (k : Keypad) : (s.setKeys k).pc = s.pc := rfl
@[simp] theorem State.setKeys_sp (s : State) (k : Keypad) : (s.setKeys k).sp = s.sp := rfl
@[simp] theorem State.setKeys_stack (s : State) (k : Keypad) : (s.setKeys k).stack = s.stack := rfl
@[simp] theorem State.setKeys_DT (s : State) (k : Keypad) : (s.setKeys k).DT = s.DT := rfl
@[simp] theorem State.setKeys_ST (s : State) (k : Keypad) : (s.setKeys k).ST = s.ST := rfl
@[simp] theorem State.setKeys_mem (s : State) (k : Keypad) : (s.setKeys k).mem = s.mem := rfl
@[simp] theorem State.setKeys_fb (s : State) (k : Keypad) : (s.setKeys k).fb = s.fb := rfl
@[simp] theorem State.setKeys_fault (s : State) (k : Keypad) : (s.setKeys k).fault = s.fault := rfl
@[simp] theorem State.setKeys_started (s : State) (k : Keypad) : (s.setKeys k).started = s.started := rfl
@[simp] theorem State.setKeys_keys (s : State) (k : Keypad) : (s.setKeys k).keys = k := rfl
@[simp] theorem State.setKeys_rand (s : State) (k : Keypad) : (s.setKeys k).rand = s.rand := rfl
@[simp] theorem State.setKeys_getV (s : State) (k : Keypad) (r : Reg) : (s.setKeys k).getV r = s.getV r := rfl
@[simp] theorem State.setKeys_readByte (s : State) (k : Keypad) (a : Nat) : (s.setKeys k).readByte a = s.readByte a := rfl

/-! ### supplyRandom -/

@[simp] theorem State.supplyRandom_V (s : State) (b : Byte) : (s.supplyRandom b).V = s.V := rfl
@[simp] theorem State.supplyRandom_I (s : State) (b : Byte) : (s.supplyRandom b).I = s.I := rfl
@[simp] theorem State.supplyRandom_pc (s : State) (b : Byte) : (s.supplyRandom b).pc = s.pc := rfl
@[simp] theorem State.supplyRandom_sp (s : State) (b : Byte) : (s.supplyRandom b).sp = s.sp := rfl
@[simp] theorem State.supplyRandom_stack (s : State) (b : Byte) : (s.supplyRandom b).stack = s.stack := rfl
@[simp] theorem State.supplyRandom_DT (s : State) (b : Byte) : (s.supplyRandom b).DT = s.DT := rfl
@[simp] theorem State.supplyRandom_ST (s : State) (b : Byte) : (s.supplyRandom b).ST = s.ST := rfl
@[simp] theorem State.supplyRandom_mem (s : State) (b : Byte) : (s.supplyRandom b).mem = s.mem := rfl
@[simp] theorem State.supplyRandom_fb (s : State) (b : Byte) : (s.supplyRandom b).fb = s.fb := rfl
@[simp] theorem State.supplyRandom_fault (s : State) (b : Byte) : (s.supplyRandom b).fault = s.fault := rfl
@[simp] theorem State.supplyRandom_started (s : State) (b : Byte) : (s.supplyRandom b).started = s.started := rfl
@[simp] theorem State.supplyRandom_keys (s : State) (b : Byte) : (s.supplyRandom b).keys = s.keys := rfl
@[simp] theorem State.supplyRandom_rand (s : State) (b : Byte) : (s.supplyRandom b).rand = { s.rand with named := some b } := rfl
@[simp] theorem State.supplyRandom_getV (s : State) (b : Byte) (r : Reg) : (s.supplyRandom b).getV r = s.getV r := rfl
@[simp] theorem State.supplyRandom_readByte (s : State) (b : Byte) (a : Nat) : (s.supplyRandom b).readByte a = s.readByte a := rfl

/-! ### Registers read after a write -/

@[simp] theorem State.getV_setV_self (s : State) (x : Reg) (v : Byte) : (s.setV x v).getV x = v := by
  simp [State.getV, State.setV]

theorem State.getV_setV_of_ne (s : State) {x r : Reg} (v : Byte) (h : r ≠ x) : (s.setV x v).getV r = s.getV r := by
  have hn : x.toNat ≠ r.toNat := fun e => h (BitVec.eq_of_toNat_eq e.symm)
  simp [State.getV, State.setV, hn]

theorem State.getV_setV (s : State) (x r : Reg) (v : Byte) :
    (s.setV x v).getV r = if r = x then v else s.getV r := by
  by_cases h : r = x
  · subst h; simp
  · rw [if_neg h, State.getV_setV_of_ne s v h]

/-! ### The random input (R36) -/

theorem State.randomByte_of_named {s : State} {b : Byte} (h : s.rand.named = some b) : s.randomByte = b := by
  simp [State.randomByte, RandomInput.byte, h]

theorem State.randomByte_of_unnamed {s : State} (h : s.rand.named = none) :
    s.randomByte = Config.randomByte s.rand.place := by
  simp [State.randomByte, RandomInput.byte, h]

@[simp] theorem State.randomByte_supplyRandom (s : State) (b : Byte) : (s.supplyRandom b).randomByte = b := rfl

/-! ### Result and flag (R111) -/

@[simp] theorem State.setResultFlag_getV_VF (s : State) (x : Reg) (v : Byte) (f : Bool) :
    (s.setResultFlag x v f).getV VF = flagByte f := by
  simp [State.setResultFlag]

theorem State.setResultFlag_getV (s : State) (x r : Reg) (v : Byte) (f : Bool) (h : r ≠ VF) :
    (s.setResultFlag x v f).getV r = if r = x then v else s.getV r := by
  rw [State.setResultFlag, State.getV_setV_of_ne _ _ h, State.getV_setV]

@[simp] theorem State.setResultFlag_I (s : State) (x : Reg) (v : Byte) (g : Bool) : (s.setResultFlag x v g).I = s.I := rfl
@[simp] theorem State.setResultFlag_pc (s : State) (x : Reg) (v : Byte) (g : Bool) : (s.setResultFlag x v g).pc = s.pc := rfl
@[simp] theorem State.setResultFlag_sp (s : State) (x : Reg) (v : Byte) (g : Bool) : (s.setResultFlag x v g).sp = s.sp := rfl
@[simp] theorem State.setResultFlag_stack (s : State) (x : Reg) (v : Byte) (g : Bool) : (s.setResultFlag x v g).stack = s.stack := rfl
@[simp] theorem State.setResultFlag_DT (s : State) (x : Reg) (v : Byte) (g : Bool) : (s.setResultFlag x v g).DT = s.DT := rfl
@[simp] theorem State.setResultFlag_ST (s : State) (x : Reg) (v : Byte) (g : Bool) : (s.setResultFlag x v g).ST = s.ST := rfl
@[simp] theorem State.setResultFlag_mem (s : State) (x : Reg) (v : Byte) (g : Bool) : (s.setResultFlag x v g).mem = s.mem := rfl
@[simp] theorem State.setResultFlag_fb (s : State) (x : Reg) (v : Byte) (g : Bool) : (s.setResultFlag x v g).fb = s.fb := rfl
@[simp] theorem State.setResultFlag_fault (s : State) (x : Reg) (v : Byte) (g : Bool) : (s.setResultFlag x v g).fault = s.fault := rfl
@[simp] theorem State.setResultFlag_started (s : State) (x : Reg) (v : Byte) (g : Bool) : (s.setResultFlag x v g).started = s.started := rfl
@[simp] theorem State.setResultFlag_keys (s : State) (x : Reg) (v : Byte) (g : Bool) : (s.setResultFlag x v g).keys = s.keys := rfl
@[simp] theorem State.setResultFlag_rand (s : State) (x : Reg) (v : Byte) (g : Bool) : (s.setResultFlag x v g).rand = s.rand := rfl
@[simp] theorem State.setResultFlag_readByte (s : State) (x : Reg) (v : Byte) (g : Bool) (a : Nat) : (s.setResultFlag x v g).readByte a = s.readByte a := rfl

/-! ### Skips -/

@[simp] theorem State.skipIf_V (s : State) (c : Bool) : (s.skipIf c).V = s.V := by cases c <;> rfl
@[simp] theorem State.skipIf_I (s : State) (c : Bool) : (s.skipIf c).I = s.I := by cases c <;> rfl
@[simp] theorem State.skipIf_sp (s : State) (c : Bool) : (s.skipIf c).sp = s.sp := by cases c <;> rfl
@[simp] theorem State.skipIf_stack (s : State) (c : Bool) : (s.skipIf c).stack = s.stack := by cases c <;> rfl
@[simp] theorem State.skipIf_DT (s : State) (c : Bool) : (s.skipIf c).DT = s.DT := by cases c <;> rfl
@[simp] theorem State.skipIf_ST (s : State) (c : Bool) : (s.skipIf c).ST = s.ST := by cases c <;> rfl
@[simp] theorem State.skipIf_mem (s : State) (c : Bool) : (s.skipIf c).mem = s.mem := by cases c <;> rfl
@[simp] theorem State.skipIf_fb (s : State) (c : Bool) : (s.skipIf c).fb = s.fb := by cases c <;> rfl
@[simp] theorem State.skipIf_fault (s : State) (c : Bool) : (s.skipIf c).fault = s.fault := by cases c <;> rfl
@[simp] theorem State.skipIf_started (s : State) (c : Bool) : (s.skipIf c).started = s.started := by cases c <;> rfl
@[simp] theorem State.skipIf_keys (s : State) (c : Bool) : (s.skipIf c).keys = s.keys := by cases c <;> rfl
@[simp] theorem State.skipIf_rand (s : State) (c : Bool) : (s.skipIf c).rand = s.rand := by cases c <;> rfl
@[simp] theorem State.skipIf_pc (s : State) (c : Bool) : (s.skipIf c).pc = if c then s.pc + 2 else s.pc := by
  cases c <;> rfl
@[simp] theorem State.skipIf_getV (s : State) (c : Bool) (r : Reg) : (s.skipIf c).getV r = s.getV r := by cases c <;> rfl
@[simp] theorem State.skipIf_readByte (s : State) (c : Bool) (a : Nat) : (s.skipIf c).readByte a = s.readByte a := by
  cases c <;> rfl

end Sys2Proof.Machine
end

