-- ==== Sys2Proof/Laws/Ops.lean ====
section
/-! SUPPORT. One specification lemma per shared operation: everything it can answer. -/

namespace Sys2Proof.Machine

/-! ### Blocks of memory (R47) -/

/-- A block in range reads byte by byte. -/
theorem State.readBlock_of_le (s : State) {a n : Nat} (h : a + n ≤ 4096) :
    s.readBlock a n = some ((List.range n).map fun k => s.readByte (a + k)) := by
  induction n generalizing a with
  | zero => rfl
  | succ n ih =>
    have hm : s.memRead a = some (s.readByte a) := if_pos (by simp only [Config.MEMTOP]; omega)
    rw [State.readBlock, hm, ih (by omega), List.range_succ_eq_map]
    simp [Function.comp_def, Nat.add_assoc, Nat.add_comm 1]

/-- A block of no bytes is always in range (R121). -/
@[simp] theorem State.readBlock_zero (s : State) (a : Nat) : s.readBlock a 0 = some [] := rfl

/-- A block with an address above 0xFFF is not read at all. -/
theorem State.readBlock_of_gt (s : State) {a n : Nat} (hn : 0 < n) (h : 4096 < a + n) : s.readBlock a n = none := by
  induction n generalizing a with
  | zero => omega
  | succ n ih =>
    rw [State.readBlock]
    by_cases ha : a ≤ 0xFFF
    · rw [ih (by omega) (by omega)]; cases s.memRead a <;> rfl
    · have : s.memRead a = none := if_neg ha
      rw [this]

/-- A block in range is written whole, and nothing but memory changes. -/
theorem State.writeBlock_of_le (s : State) {a : Nat} {bs : List Byte} (h : a + bs.length ≤ 4096) :
    s.writeBlock a bs = some { s with mem := Memory.writeList s.mem a bs } := by
  induction bs generalizing s a with
  | nil => rfl
  | cons b bs ih =>
    rw [List.length_cons] at h
    have hm : s.memWrite a b = some { s with mem := Memory.write s.mem a b } :=
      if_pos (by simp only [Config.MEMTOP]; omega)
    rw [State.writeBlock, hm]
    exact ih _ (by omega)

/-- A block with an address above 0xFFF is not written at all. -/
theorem State.writeBlock_of_gt (s : State) {a : Nat} {bs : List Byte} (hn : bs ≠ []) (h : 4096 < a + bs.length) :
    s.writeBlock a bs = none := by
  induction bs generalizing s a with
  | nil => exact absurd rfl hn
  | cons b bs ih =>
    rw [List.length_cons] at h
    rw [State.writeBlock]
    by_cases ha : a ≤ 0xFFF
    · have hm : s.memWrite a b = some { s with mem := Memory.write s.mem a b } := if_pos ha
      rw [hm]
      refine ih _ ?_ (by omega)
      rintro rfl
      simp at h; omega
    · have hm : s.memWrite a b = none := if_neg ha
      rw [hm]

/-- Storing through I, in range: memory changes, nothing else. -/
theorem State.storeAtI_of_le (s : State) {bs : List Byte} (h : s.I.toNat + bs.length ≤ 4096) :
    s.storeAtI bs = .next { s with mem := Memory.writeList s.mem s.I.toNat bs } := by
  rw [State.storeAtI, State.writeBlock_of_le s h]

/-- Storing through I, out of range: the fault (R141). -/
theorem State.storeAtI_of_gt (s : State) {bs : List Byte} (hn : bs ≠ []) (h : 4096 < s.I.toNat + bs.length) :
    s.storeAtI bs = .next (s.withFault .dataOutOfRange) := by
  rw [State.storeAtI, State.writeBlock_of_gt s hn h]; rfl

/-! ### The call stack (R26, R27) -/

/-- A push below the top slot writes that slot and counts it. -/
theorem State.push_of_lt (s : State) (a : Word) (h : s.sp.val < 16) :
    s.push a = some { s with stack := s.stack.set s.sp.val a h, sp := ⟨s.sp.val + 1, by omega⟩ } := by
  simp [State.push, h]

/-- A push on a full stack has no result. -/
theorem State.push_of_full (s : State) (a : Word) (h : s.sp.val = 16) : s.push a = none := by
  simp [State.push, h]

/-- A pop answers the top slot and keeps it. -/
theorem State.pop_of_pos (s : State) (h : 0 < s.sp.val) :
    s.pop = some (s.stack[s.sp.val - 1]'(by omega), { s with sp := ⟨s.sp.val - 1, by omega⟩ }) := by
  simp [State.pop, h]

/-- A pop on an empty stack has no result. -/
theorem State.pop_of_empty (s : State) (h : s.sp.val = 0) : s.pop = none := by
  simp [State.pop, h]

/-! ### Blocks of registers (R116, R117) -/

@[simp] theorem regOfNat_toNat {k : Nat} (h : k < 16) : (regOfNat k).toNat = k := by
  simp [regOfNat, Nat.mod_eq_of_lt h]

theorem regOfNat_eq_iff {k : Nat} (h : k < 16) (r : Reg) : r = regOfNat k ↔ r.toNat = k :=
  ⟨fun e => by rw [e, regOfNat_toNat h], fun e => BitVec.eq_of_toNat_eq (by rw [e, regOfNat_toNat h])⟩

/-- V0 to V[x] are x + 1 bytes. -/
@[simp] theorem State.regsUpTo_length (s : State) (x : Reg) : (s.regsUpTo x).length = x.toNat + 1 := by
  simp [State.regsUpTo]

/-- A block of registers written: those of the block hold its bytes, the others are left alone. -/
theorem State.setRegsFrom_getV (s : State) {k : Nat} (bs : List Byte) (h : k + bs.length ≤ 16) (r : Reg) :
    (s.setRegsFrom k bs).getV r =
      if hr : k ≤ r.toNat ∧ r.toNat < k + bs.length then bs[r.toNat - k]'(by omega) else s.getV r := by
  induction bs generalizing s k with
  | nil => simp [State.setRegsFrom]
  | cons b bs ih =>
    rw [List.length_cons] at h
    rw [State.setRegsFrom, ih _ (by omega), State.getV_setV]
    have hk := regOfNat_eq_iff (show k < 16 by omega) r
    by_cases h1 : r.toNat = k
    · rw [if_pos (hk.2 h1), dif_neg (by omega), dif_pos (by simp; omega)]
      simp [h1]
    · rw [if_neg (fun e => h1 (hk.1 e))]
      by_cases h2 : k + 1 ≤ r.toNat ∧ r.toNat < k + 1 + bs.length
      · rw [dif_pos h2, dif_pos (by simp; omega)]
        have : r.toNat - k = (r.toNat - (k + 1)) + 1 := by omega
        simp [this]
      · rw [dif_neg h2, dif_neg (by simp; omega)]

/-- A block of registers written changes nothing but registers. -/
theorem State.setRegsFrom_eq (s : State) (k : Nat) (bs : List Byte) :
    s.setRegsFrom k bs = { s with V := (s.setRegsFrom k bs).V } := by
  induction bs generalizing s k with
  | nil => rfl
  | cons b bs ih => rw [State.setRegsFrom, ih]; rfl

/-! ### Framebuffer cells (R119) -/

/-- Toggling a cell changes that cell alone. -/
theorem Framebuffer.cell_toggle (fb : Framebuffer) (a b : Fin 2048) :
    (fb.toggle a).cell b = if b = a then !fb.cell b else fb.cell b := by
  have ha := a.isLt
  have hb := b.isLt
  unfold Framebuffer.toggle Framebuffer.cell
  by_cases hr : a.val / 64 = b.val / 64
  · have hm : b.val % 64 < 64 := Nat.mod_lt _ (by decide)
    have hcell : (a.val % 64 = b.val % 64) ↔ b = a := by
      constructor
      · intro h; apply Fin.ext; omega
      · rintro rfl; rfl
    simp only [hr, Vector.getElem_set_self, BitVec.getLsbD_xor, BitVec.getLsbD_twoPow]
    by_cases hba : b = a
    · subst hba; simp [hm]
    · rw [if_neg hba]
      have : ¬ a.val % 64 = b.val % 64 := fun h => hba (hcell.1 h)
      simp [this]
  · have hne : b ≠ a := by rintro rfl; exact hr rfl
    rw [if_neg hne]
    simp [hr]

/-- Every cell of a cleared framebuffer is off (R120). -/
@[simp] theorem Framebuffer.cell_allOff (a : Fin 2048) : Framebuffer.allOff.cell a = false := by
  simp [Framebuffer.allOff, Framebuffer.cell]

/-- Framebuffers with the same cells are the same. -/
theorem Framebuffer.ext_cell {f g : Framebuffer} (h : ∀ a, f.cell a = g.cell a) : f = g := by
  apply Vector.ext
  intro r hr
  apply BitVec.eq_of_getLsbD_eq
  intro c hc
  have := h ⟨64 * r + c, by omega⟩
  have h1 : (64 * r + c) / 64 = r := by omega
  have h2 : (64 * r + c) % 64 = c := by omega
  simpa [Framebuffer.cell, h1, h2] using this

/-! ### The timers -/

/-- The timers' countdown (R126): one less, unless already 0. -/
theorem countDown_toNat (t : Byte) : (countDown t).toNat = t.toNat - 1 := by
  unfold countDown
  by_cases h : t = 0
  · subst h; rfl
  · rw [if_neg h]
    have h0 : t.toNat ≠ 0 := fun e => h (BitVec.eq_of_toNat_eq (by simpa using e))
    have := t.isLt
    have h1 : (1 : Byte).toNat = 1 := rfl
    rw [BitVec.toNat_sub, h1]
    omega

/-! ### The shared operations act on the architectural state alone (R19, R37) -/

theorem State.skipIf_toArchState {s u : State} (c : Bool) (h : s.toArchState = u.toArchState) :
    (s.skipIf c).toArchState = (u.skipIf c).toArchState := by
  cases s; cases u; cases h; cases c <;> rfl

theorem State.setRegsFrom_toArchState (bs : List Byte) : ∀ (k : Nat) {s u : State}, s.toArchState = u.toArchState →
    (s.setRegsFrom k bs).toArchState = (u.setRegsFrom k bs).toArchState := by
  induction bs with
  | nil => exact fun _ _ _ h => h
  | cons v vs ih => exact fun k s u h => ih (k + 1) (by cases s; cases u; cases h; rfl)

theorem State.storeAtI_toArchState {s u t : State} (bytes : List Byte) (h : s.toArchState = u.toArchState)
    (hs : s.storeAtI bytes = .next t) : ∃ v, u.storeAtI bytes = .next v ∧ v.toArchState = t.toArchState := by
  obtain ⟨a, k, r, d⟩ := s
  obtain ⟨a', k', r', d'⟩ := u
  obtain rfl : a = a' := h
  by_cases hn : bytes = []
  · subst hn; cases hs; exact ⟨_, rfl, rfl⟩
  · by_cases hb : a.I.toNat + bytes.length ≤ 4096
    · rw [State.storeAtI_of_le _ hb] at hs ⊢; cases hs; exact ⟨_, rfl, rfl⟩
    · rw [State.storeAtI_of_gt _ hn (Nat.lt_of_not_le hb)] at hs ⊢; cases hs; exact ⟨_, rfl, rfl⟩

end Sys2Proof.Machine
end

