-- ==== Sys2Proof/Laws/Display.lean ====
section
/-! SUPPORT. The rasterizer (R121 to R124): which cells a sprite toggles, and when it collides. -/

namespace Sys2Proof.Machine

/-- The cell of sprite row r and column c, for any origin (R122). -/
@[simp] theorem pixelAddr_val (x0 y0 r c : Nat) : (pixelAddr x0 y0 r c).val = ((y0 + r) * 64 + (x0 + c)) % 2048 := rfl

/-- Distinct pairs of a sprite of at most 16 rows and 8 columns have distinct cells (R124). -/
theorem pixelAddr_injective {x0 y0 r r' c c' : Nat} (hr : r < 16) (hr' : r' < 16) (hc : c < 8) (hc' : c' < 8)
    (h : pixelAddr x0 y0 r c = pixelAddr x0 y0 r' c') : r = r' ∧ c = c' := by
  have := congrArg Fin.val h
  simp only [pixelAddr_val] at this
  omega

/-- Cell `a` is a set bit of row `r` of a sprite, in columns `c` to `c + n`. -/
def RowCovers (x0 y0 r : Nat) (b : Byte) (c n : Nat) (a : Fin 2048) : Prop :=
  ∃ k, c ≤ k ∧ k < c + n ∧ spriteBit b k = true ∧ pixelAddr x0 y0 r k = a

theorem rowCovers_succ (x0 y0 r : Nat) (b : Byte) (c n : Nat) (a : Fin 2048) :
    RowCovers x0 y0 r b c (n + 1) a ↔
      (spriteBit b c = true ∧ pixelAddr x0 y0 r c = a) ∨ RowCovers x0 y0 r b (c + 1) n a := by
  constructor
  · rintro ⟨k, h1, h2, h3, h4⟩
    rcases Nat.eq_or_lt_of_le h1 with rfl | h
    · exact .inl ⟨h3, h4⟩
    · exact .inr ⟨k, h, by omega, h3, h4⟩
  · rintro (⟨h3, h4⟩ | ⟨k, h1, h2, h3, h4⟩)
    · exact ⟨c, by omega, by omega, h3, h4⟩
    · exact ⟨k, by omega, by omega, h3, h4⟩

open scoped Classical in
/-- One sprite row: each covered cell is toggled once, and the row collides iff a covered cell was on. -/
theorem Raster.drawCols_spec (p : Raster) (x0 y0 r : Nat) (b : Byte) (c n : Nat) (hr : r < 16) (hn : c + n ≤ 8) :
    (∀ a, (p.drawCols x0 y0 r b c n).fb.cell a = if RowCovers x0 y0 r b c n a then !p.fb.cell a else p.fb.cell a) ∧
    ((p.drawCols x0 y0 r b c n).collided = true ↔
      p.collided = true ∨ ∃ a, RowCovers x0 y0 r b c n a ∧ p.fb.cell a = true) := by
  induction n generalizing p c with
  | zero =>
    have h0 : ∀ a, ¬ RowCovers x0 y0 r b c 0 a := fun a ⟨k, h1, h2, _⟩ => by omega
    simp [Raster.drawCols, h0]
  | succ n ih =>
    have hdisj : ∀ a, pixelAddr x0 y0 r c = a → ¬ RowCovers x0 y0 r b (c + 1) n a := by
      rintro a ha ⟨k, h1, h2, _, h4⟩
      have := (pixelAddr_injective hr hr (by omega) (by omega) (ha.trans h4.symm)).2
      omega
    rw [Raster.drawCols]
    by_cases hb : spriteBit b c = true
    · rw [if_pos hb]
      obtain ⟨h1, h2⟩ := ih (p.toggle (pixelAddr x0 y0 r c)) (c + 1) (by omega)
      refine ⟨fun a => ?_, ?_⟩
      · rw [h1 a]
        simp only [Raster.toggle, Framebuffer.cell_toggle, rowCovers_succ, hb, true_and]
        by_cases ha : pixelAddr x0 y0 r c = a
        · simp [hdisj a ha, ha]
        · have ha' : ¬ a = pixelAddr x0 y0 r c := fun e => ha e.symm
          simp only [ha, ha', if_false, false_or]
      · rw [h2]
        simp only [Raster.toggle, Framebuffer.cell_toggle, rowCovers_succ, hb, true_and, Bool.or_eq_true]
        constructor
        · rintro ((h | h) | ⟨a, h, h'⟩)
          · exact .inl h
          · exact .inr ⟨_, .inl rfl, h⟩
          · refine .inr ⟨a, .inr h, ?_⟩
            rw [if_neg] at h'
            · exact h'
            · exact fun e => hdisj a e.symm h
        · rintro (h | ⟨a, rfl | h, h'⟩)
          · exact .inl (.inl h)
          · exact .inl (.inr h')
          · refine .inr ⟨a, h, ?_⟩
            rw [if_neg (fun e => hdisj a e.symm h)]
            exact h'
    · rw [if_neg hb]
      obtain ⟨h1, h2⟩ := ih p (c + 1) (by omega)
      simp [h1, h2, rowCovers_succ, hb]

/-- Cell `a` is a set bit of one of the rows `r`, `r + 1`, ... of a sprite. -/
def RowsCover (x0 y0 r : Nat) (bs : List Byte) (a : Fin 2048) : Prop :=
  ∃ (k : Nat) (hk : k < bs.length), RowCovers x0 y0 (r + k) bs[k] 0 8 a

theorem rowsCover_cons (x0 y0 r : Nat) (b : Byte) (bs : List Byte) (a : Fin 2048) :
    RowsCover x0 y0 r (b :: bs) a ↔ RowCovers x0 y0 r b 0 8 a ∨ RowsCover x0 y0 (r + 1) bs a := by
  constructor
  · rintro ⟨k, hk, h⟩
    cases k with
    | zero => exact .inl h
    | succ k =>
      refine .inr ⟨k, by simpa using hk, ?_⟩
      have : r + 1 + k = r + (k + 1) := by omega
      rw [this]; simpa using h
  · rintro (h | ⟨k, hk, h⟩)
    · exact ⟨0, by simp, h⟩
    · refine ⟨k + 1, by simpa using hk, ?_⟩
      have : r + (k + 1) = r + 1 + k := by omega
      rw [this]; simpa using h

open scoped Classical in
/-- A whole sprite: each covered cell is toggled once, and it collides iff a covered cell was on. -/
theorem Raster.drawRows_spec (p : Raster) (x0 y0 r : Nat) (bs : List Byte) (hr : r + bs.length ≤ 16) :
    (∀ a, (p.drawRows x0 y0 r bs).fb.cell a = if RowsCover x0 y0 r bs a then !p.fb.cell a else p.fb.cell a) ∧
    ((p.drawRows x0 y0 r bs).collided = true ↔
      p.collided = true ∨ ∃ a, RowsCover x0 y0 r bs a ∧ p.fb.cell a = true) := by
  induction bs generalizing p r with
  | nil =>
    have h0 : ∀ a, ¬ RowsCover x0 y0 r [] a := fun a ⟨k, hk, _⟩ => by simp at hk
    simp [Raster.drawRows, h0]
  | cons b bs ih =>
    rw [List.length_cons] at hr
    have hdisj : ∀ a, RowCovers x0 y0 r b 0 8 a → ¬ RowsCover x0 y0 (r + 1) bs a := by
      rintro a ⟨c, _, hc, _, h⟩ ⟨k, hk, ⟨c', _, hc', _, h'⟩⟩
      have := (pixelAddr_injective (by omega) (by omega) (by omega) (by omega) (h.trans h'.symm)).1
      omega
    obtain ⟨c1, c2⟩ := p.drawCols_spec x0 y0 r b 0 8 (by omega) (by omega)
    obtain ⟨h1, h2⟩ := ih (p.drawCols x0 y0 r b 0 8) (r + 1) (by omega)
    rw [Raster.drawRows]
    refine ⟨fun a => ?_, ?_⟩
    · rw [h1 a, c1 a]
      simp only [rowsCover_cons]
      by_cases ha : RowCovers x0 y0 r b 0 8 a
      · simp [ha, hdisj a ha]
      · simp [ha]
    · rw [h2, c2]
      simp only [rowsCover_cons]
      constructor
      · rintro ((h | ⟨a, h, h'⟩) | ⟨a, h, h'⟩)
        · exact .inl h
        · exact .inr ⟨a, .inl h, h'⟩
        · rw [c1 a, if_neg (fun e => hdisj a e h)] at h'
          exact .inr ⟨a, .inr h, h'⟩
      · rintro (h | ⟨a, h | h, h'⟩)
        · exact .inl (.inl h)
        · exact .inl (.inr ⟨a, h, h'⟩)
        · refine .inr ⟨a, h, ?_⟩
          rw [c1 a, if_neg (fun e => hdisj a e h)]
          exact h'

end Sys2Proof.Machine
end

