-- ==== Sys2Proof/Laws/PerInstr.lean ====
section
/-! SUPPORT. The family `Encoding`: what the encoder writes, the decoder reads back, one lemma per constructor. -/

namespace Sys2Proof.Laws.Encoding

/-- Decoding the word of a well-formed instruction gives the instruction back (R76, R78). -/
def Statement (i : Instr) : Prop := i.wf = true → decode (encode i) = i

theorem cls : Statement (.cls) := fun _ => rfl

theorem ret : Statement (.ret) := fun _ => rfl

theorem jp (nnn : Addr) : Statement (.jp nnn) := fun _ => by simp [encode, decode]

theorem call (nnn : Addr) : Statement (.call nnn) := fun _ => by simp [encode, decode]

theorem seVxByte (x : Reg) (nn : Byte) : Statement (.seVxByte x nn) := fun _ => by simp [encode, decode]

theorem sneVxByte (x : Reg) (nn : Byte) : Statement (.sneVxByte x nn) := fun _ => by simp [encode, decode]

theorem seVxVy (x y : Reg) : Statement (.seVxVy x y) := fun _ => by simp [encode, decode]

theorem ldVxByte (x : Reg) (nn : Byte) : Statement (.ldVxByte x nn) := fun _ => by simp [encode, decode]

theorem addVxByte (x : Reg) (nn : Byte) : Statement (.addVxByte x nn) := fun _ => by simp [encode, decode]

theorem ldVxVy (x y : Reg) : Statement (.ldVxVy x y) := fun _ => by simp [encode, decode, decodeClass8]

theorem orVxVy (x y : Reg) : Statement (.orVxVy x y) := fun _ => by simp [encode, decode, decodeClass8]

theorem andVxVy (x y : Reg) : Statement (.andVxVy x y) := fun _ => by simp [encode, decode, decodeClass8]

theorem xorVxVy (x y : Reg) : Statement (.xorVxVy x y) := fun _ => by simp [encode, decode, decodeClass8]

theorem addVxVy (x y : Reg) : Statement (.addVxVy x y) := fun _ => by simp [encode, decode, decodeClass8]

theorem sub (x y : Reg) : Statement (.sub x y) := fun _ => by simp [encode, decode, decodeClass8]

theorem shr (x y : Reg) : Statement (.shr x y) := fun _ => by simp [encode, decode, decodeClass8]

theorem subn (x y : Reg) : Statement (.subn x y) := fun _ => by simp [encode, decode, decodeClass8]

theorem shl (x y : Reg) : Statement (.shl x y) := fun _ => by simp [encode, decode, decodeClass8]

theorem sneVxVy (x y : Reg) : Statement (.sneVxVy x y) := fun _ => by simp [encode, decode]

theorem ldI (nnn : Addr) : Statement (.ldI nnn) := fun _ => by simp [encode, decode]

theorem jpV0 (nnn : Addr) : Statement (.jpV0 nnn) := fun _ => by simp [encode, decode]

theorem rnd (x : Reg) (nn : Byte) : Statement (.rnd x nn) := fun _ => by simp [encode, decode]

theorem drw (x y : Reg) (n : Nibble) : Statement (.drw x y n) := fun _ => by simp [encode, decode]

theorem skp (x : Reg) : Statement (.skp x) := fun _ => by simp [encode, decode, decodeClassE, fieldN_packXB]

theorem sknp (x : Reg) : Statement (.sknp x) := fun _ => by simp [encode, decode, decodeClassE, fieldN_packXB]

theorem ldVxDt (x : Reg) : Statement (.ldVxDt x) := fun _ => by simp [encode, decode, decodeClassF]

theorem ldVxK (x : Reg) : Statement (.ldVxK x) := fun _ => by simp [encode, decode, decodeClassF]

theorem ldDtVx (x : Reg) : Statement (.ldDtVx x) := fun _ => by simp [encode, decode, decodeClassF]

theorem ldStVx (x : Reg) : Statement (.ldStVx x) := fun _ => by simp [encode, decode, decodeClassF]

theorem addI (x : Reg) : Statement (.addI x) := fun _ => by simp [encode, decode, decodeClassF]

theorem ldF (x : Reg) : Statement (.ldF x) := fun _ => by simp [encode, decode, decodeClassF]

theorem ldB (x : Reg) : Statement (.ldB x) := fun _ => by simp [encode, decode, decodeClassF]

theorem stRegs (x : Reg) : Statement (.stRegs x) := fun _ => by simp [encode, decode, decodeClassF]

theorem ldRegs (x : Reg) : Statement (.ldRegs x) := fun _ => by simp [encode, decode, decodeClassF]

theorem nop (w : Word) : Statement (.nop w) := by
  intro h
  change decode w = .nop w
  unfold Instr.wf unassigned at h
  simp only [decode, decodeClass0, decodeClass8, decodeClassE, decodeClassF, fieldC, fieldN, fieldNN]
  split <;> simp_all
  all_goals (split <;> simp_all)

end Sys2Proof.Laws.Encoding
end

