-- ==== Sys2Proof/Laws/Step.lean ====
section
/-! SUPPORT. Everything a step can do, said once: the inversion of `step`, and the answers of the operations that can
raise a fault. -/

namespace Sys2Proof.Machine

@[simp] theorem concludeAnswer_next (s t : State) : concludeAnswer s (.next t) = .next (s.conclude t) := rfl

/-- A step that completes ends by the tick. -/
theorem State.conclude_of_noFault (s : State) {t : State} (h : t.fault = .none) : s.conclude t = t.endStep := if_pos h

/-- A step that faults gives back the state it began with (R85). -/
theorem State.conclude_of_fault (s : State) {t : State} (h : t.fault ≠ .none) : s.conclude t = s.withFault t.fault :=
  if_neg h

/-- The word a fetch in range reads (R48, R81). -/
theorem State.fetchWord_of_le (s : State) (h : s.pc.toNat ≤ 0xFFE) :
    s.fetchWord = some (wordOfBytes (s.readByte s.pc.toNat) (s.readByte (s.pc.toNat + 1))) := if_pos h

/-- A fetch out of range reads nothing (R81). -/
theorem State.fetchWord_of_gt (s : State) (h : 0xFFE < s.pc.toNat) : s.fetchWord = none := if_neg (Nat.not_le.2 h)

/-- A step that fetches a word concludes what Execute leaves (R79). -/
theorem step_of_fetchWord {s : State} {w : Word} (hf : s.fault = .none) (hw : s.fetchWord = some w) :
    step s = concludeAnswer s (exec (decode w) s.beginExecute) := by
  rw [step, if_pos hf, hw]

/-- A step whose fetch is out of range faults (R81). -/
theorem step_of_fetchWord_none {s : State} (hf : s.fault = .none) (hw : s.fetchWord = none) :
    step s = .next (s.withFault .fetchOutOfRange) := by
  rw [step, if_pos hf, hw]; rfl

/-- A faulted core has no step (R86). -/
theorem step_of_fault {s : State} (hf : s.fault ≠ .none) : step s = .fault (.stopped s.fault) := if_neg hf

/-- What a step can do: a fetch fault, or Execute of the fetched word, concluded. -/
theorem step_next_cases {s t : State} (h : step s = .next t) :
    s.fault = .none ∧
      ((s.fetchWord = none ∧ t = s.withFault .fetchOutOfRange) ∨
       ∃ w u, s.fetchWord = some w ∧ exec (decode w) s.beginExecute = .next u ∧ t = s.conclude u) := by
  by_cases hf : s.fault = .none
  · refine ⟨hf, ?_⟩
    cases hw : s.fetchWord with
    | none =>
      rw [step_of_fetchWord_none hf hw] at h
      exact .inl ⟨rfl, (Host.Outcome.next.inj h).symm⟩
    | some w =>
      rw [step_of_fetchWord hf hw] at h
      cases he : exec (decode w) s.beginExecute with
      | next u => rw [he] at h; exact .inr ⟨w, u, rfl, he, (Host.Outcome.next.inj h).symm⟩
      | fault r => rw [he] at h; cases h
      | refused r => rw [he] at h; cases h
  · rw [step_of_fault hf] at h; cases h

/-! ### The operations that can fault -/

/-- CALL: a push and a jump, or the overflow. -/
theorem execCall_of_lt (nnn : Addr) (s : State) (h : s.sp.val < 16) :
    execCall nnn s = .next { s with
      pc := zextAddr nnn, stack := s.stack.set s.sp.val s.pc h, sp := ⟨s.sp.val + 1, by omega⟩ } := by
  rw [execCall, State.push_of_lt s s.pc h]; rfl

theorem execCall_of_full (nnn : Addr) (s : State) (h : s.sp.val = 16) :
    execCall nnn s = .next (s.withFault .stackOverflow) := by
  rw [execCall, State.push_of_full s s.pc h]; rfl

/-- RET: a pop and a jump, or the underflow. -/
theorem execRet_of_pos (s : State) (h : 0 < s.sp.val) :
    execRet s = .next { s with
      pc := s.stack[s.sp.val - 1]'(by omega), sp := ⟨s.sp.val - 1, by omega⟩ } := by
  rw [execRet, State.pop_of_pos s h]; rfl

theorem execRet_of_empty (s : State) (h : s.sp.val = 0) : execRet s = .next (s.withFault .stackUnderflow) := by
  rw [execRet, State.pop_of_empty s h]; rfl

/-- LD B: three digits stored, or the fault. -/
theorem execLdB_of_le (x : Reg) (s : State) (h : s.I.toNat + 3 ≤ 4096) :
    execLdB x s = .next { s with mem := Memory.writeList s.mem s.I.toNat (bcdDigits (s.getV x)) } :=
  State.storeAtI_of_le s h

theorem execLdB_of_gt (x : Reg) (s : State) (h : 4096 < s.I.toNat + 3) :
    execLdB x s = .next (s.withFault .dataOutOfRange) := State.storeAtI_of_gt s (by simp [bcdDigits]) h

/-- LD [I], Vx: the registers stored, or the fault. -/
theorem execStRegs_of_le (x : Reg) (s : State) (h : s.I.toNat + (x.toNat + 1) ≤ 4096) :
    execStRegs x s = .next { s with mem := Memory.writeList s.mem s.I.toNat (s.regsUpTo x) } :=
  State.storeAtI_of_le s (by simpa using h)

theorem execStRegs_of_gt (x : Reg) (s : State) (h : 4096 < s.I.toNat + (x.toNat + 1)) :
    execStRegs x s = .next (s.withFault .dataOutOfRange) :=
  State.storeAtI_of_gt s (fun e => by simpa using congrArg List.length e) (by simpa using h)

/-- LD Vx, [I]: the registers loaded, or the fault. -/
theorem execLdRegs_of_le (x : Reg) (s : State) (h : s.I.toNat + (x.toNat + 1) ≤ 4096) :
    execLdRegs x s = .next (s.setRegsFrom 0 ((List.range (x.toNat + 1)).map fun k => s.readByte (s.I.toNat + k))) := by
  rw [execLdRegs, State.readBlock_of_le s h]

theorem execLdRegs_of_gt (x : Reg) (s : State) (h : 4096 < s.I.toNat + (x.toNat + 1)) :
    execLdRegs x s = .next (s.withFault .dataOutOfRange) := by
  rw [execLdRegs, State.readBlock_of_gt s (Nat.succ_pos _) h]; rfl

/-- DRW: the sprite drawn, or the fault. -/
theorem execDrw_of_le (x y : Reg) (n : Nibble) (s : State) (h : n.toNat = 0 ∨ s.I.toNat + n.toNat ≤ 4096) :
    execDrw x y n s =
      let p := drawSprite s.fb ((s.getV x).toNat % 64) ((s.getV y).toNat % 32)
        ((List.range n.toNat).map fun k => s.readByte (s.I.toNat + k))
      .next ((s.setFb p.fb).setV VF (flagByte p.collided)) := by
  have hb : s.readBlock s.I.toNat n.toNat = some ((List.range n.toNat).map fun k => s.readByte (s.I.toNat + k)) := by
    rcases h with h | h
    · rw [h]; rfl
    · exact State.readBlock_of_le s h
  rw [execDrw, hb]

theorem execDrw_of_gt (x y : Reg) (n : Nibble) (s : State) (hn : 0 < n.toNat) (h : 4096 < s.I.toNat + n.toNat) :
    execDrw x y n s = .next (s.withFault .dataOutOfRange) := by
  rw [execDrw, State.readBlock_of_gt s hn h]; rfl

end Sys2Proof.Machine
end

