-- ==== Sys2Proof/Tests/Slice0.lean ====
section
/-! SUPPORT. Tests. Expected results are the spec's own worked examples and vectors (95_test_vectors.md, S1 to V154) or
its encoding rules, never the model's answers. Then a witness for the hypotheses of each statement that has any. -/

namespace Sys2Proof.Tests

open Sys2Proof.Machine

/-! ### Helpers -/

/-- The reset state with some registers set: pairs of a register number and a value. -/
def regs (l : List (Reg × Byte)) : State := l.foldl (fun s p => s.setV p.1 p.2) State.reset

/-- Bytes placed in a state's memory. -/
def mem (a : Nat) (bytes : List Byte) (s : State) : State := { s with mem := Memory.writeList s.mem a bytes }

/-- Keys pressed. -/
def keysDown (l : List Nat) : Keypad := Vector.ofFn fun k : Fin 16 => l.contains k.val

/-- One step over the word `w` placed at `s`'s pc. -/
def stepWord (w : Nat) (s : State) : Answer := step (s.withFetchWord 16 w)

/-- The answer is a next state with the property. -/
def nextIs (a : Answer) (p : State → Bool) : Bool :=
  match a with
  | .next t => p t
  | _ => false

/-! ### Syntax and well-formedness: the only ill-formed terms are NOPs over a word that some row covers (R73) -/

theorem test_wf_refuses_class0 : Instr.wf (.nop 0x00E0#16) = false ∧ Instr.wf (.nop 0x00EE#16) = false := by decide
theorem test_wf_refuses_direct : Instr.wf (.nop 0x1300#16) = false ∧ Instr.wf (.nop 0xD125#16) = false := by decide
theorem test_wf_refuses_class8 : Instr.wf (.nop 0x8127#16) = false ∧ Instr.wf (.nop 0x812E#16) = false := by decide
theorem test_wf_refuses_classE : Instr.wf (.nop 0xE09E#16) = false ∧ Instr.wf (.nop 0xE0A1#16) = false := by decide
theorem test_wf_refuses_classF : Instr.wf (.nop 0xF01E#16) = false ∧ Instr.wf (.nop 0xF065#16) = false := by decide
theorem test_wf_accepts : Instr.wf (.nop 0x0123#16) = true ∧ Instr.wf (.nop 0x800F#16) = true ∧
    Instr.wf (.nop 0xE0A2#16) = true ∧ Instr.wf (.nop 0xF0FF#16) = true ∧ Instr.wf .cls = true := by decide

/-! ### Decode: every row's word written out bit by bit from the spec's patterns (R64, R67 to R71) -/

theorem test_decode_class0 :
    decode 0b0000_0000_1110_0000#16 = .cls ∧ decode 0b0000_0000_1110_1110#16 = .ret ∧
    decode 0b0000_0001_0010_0011#16 = .nop 0x0123 := by decide
theorem test_decode_control :
    decode 0b0001_0011_0000_0001#16 = .jp 0x301 ∧ decode 0b0010_0011_0000_0001#16 = .call 0x301 ∧
    decode 0b0011_0011_0001_0010#16 = .seVxByte 3 0x12 ∧ decode 0b0100_0011_0001_0010#16 = .sneVxByte 3 0x12 ∧
    decode 0b0101_0001_0010_0000#16 = .seVxVy 1 2 ∧ decode 0b1001_0001_0010_0000#16 = .sneVxVy 1 2 ∧
    decode 0b1011_0011_0000_0001#16 = .jpV0 0x301 := by decide
theorem test_decode_loads :
    decode 0b0110_1010_0100_0010#16 = .ldVxByte 0xA 0x42 ∧ decode 0b0111_0001_1111_1110#16 = .addVxByte 1 0xFE ∧
    decode 0b1100_0011_0000_1111#16 = .rnd 3 0x0F := by decide
theorem test_decode_class8_logic :
    decode 0b1000_0001_0010_0000#16 = .ldVxVy 1 2 ∧ decode 0b1000_0001_0010_0001#16 = .orVxVy 1 2 ∧
    decode 0b1000_0001_0010_0010#16 = .andVxVy 1 2 ∧ decode 0b1000_0001_0010_0011#16 = .xorVxVy 1 2 := by decide
theorem test_decode_class8_arithmetic :
    decode 0b1000_0001_0010_0100#16 = .addVxVy 1 2 ∧ decode 0b1000_0001_0010_0101#16 = .sub 1 2 ∧
    decode 0b1000_0001_0010_0110#16 = .shr 1 2 ∧ decode 0b1000_0001_0010_0111#16 = .subn 1 2 ∧
    decode 0b1000_0001_0010_1110#16 = .shl 1 2 ∧ decode 0b1000_0000_0000_1000#16 = .nop 0x8008 := by decide
theorem test_decode_display_keys :
    decode 0b1101_0001_0010_0101#16 = .drw 1 2 5 ∧ decode 0b1110_0001_1001_1110#16 = .skp 1 ∧
    decode 0b1110_0001_1010_0001#16 = .sknp 1 ∧ decode 0b1110_0000_1010_0010#16 = .nop 0xE0A2 := by decide
theorem test_decode_classF_timers_keys :
    decode 0b1111_0001_0000_0111#16 = .ldVxDt 1 ∧ decode 0b1111_0010_0000_1010#16 = .ldVxK 2 ∧
    decode 0b1111_0011_0001_0101#16 = .ldDtVx 3 ∧ decode 0b1111_0100_0001_1000#16 = .ldStVx 4 := by decide
theorem test_decode_index_memory :
    decode 0b1010_0100_0000_0001#16 = .ldI 0x401 ∧ decode 0b1111_0101_0001_1110#16 = .addI 5 ∧
    decode 0b1111_0110_0010_1001#16 = .ldF 6 ∧ decode 0b1111_0111_0011_0011#16 = .ldB 7 ∧
    decode 0b1111_1000_0101_0101#16 = .stRegs 8 ∧ decode 0b1111_1001_0110_0101#16 = .ldRegs 9 := by decide
/-- The ignored bits of R72, from the decode vectors. -/
theorem test_decode_ignored_bits :
    decode 0x0000#16 = .cls ∧ decode 0x0120#16 = .cls ∧ decode 0x012E#16 = .ret ∧ decode 0x512F#16 = .seVxVy 1 2 ∧
    decode 0x9121#16 = .sneVxVy 1 2 ∧ decode 0xE00E#16 = .skp 0 ∧ decode 0xE011#16 = .sknp 0 := by decide
/-- The strict forms R76 lists, written from its word column. -/
theorem test_encode :
    encode .cls = 0x00E0 ∧ encode .ret = 0x00EE ∧ encode (.seVxVy 1 2) = 0x5120 ∧ encode (.shl 1 0) = 0x810E ∧
    encode (.drw 1 2 5) = 0xD125 ∧ encode (.skp 1) = 0xE19E ∧ encode (.sknp 1) = 0xE1A1 ∧ encode (.stRegs 2) = 0xF255 ∧
    encodeBytes (.jp 0x300) = [0x13, 0x00] := by decide
/-- The byte stream: high byte first, two bytes taken, one byte refused by name (R48, R63). -/
theorem test_decode_bytes :
    decodeBytes [0x60, 0x07, 0xAB] = .ok (.ldVxByte 0 7, [0xAB]) ∧ decodeBytes [0x60] = .error .fewerThanTwoBytes ∧
    decodeTableWord 16 0x6A42 = some (.ldVxByte 0xA 0x42) := by decide

/-! ### The step (V1 to V8) -/

theorem test_nop_V1 : nextIs (stepWord 0x0001 { State.reset with DT := 5 })
    (fun t => t.pc == 0x202 && t.DT == 4 && t.V == State.reset.V) = true := by decide
theorem test_nop_V8 : nextIs (stepWord 0xF0FF State.reset) (fun t => t.pc == 0x202 && t.DT == 0 && t.ST == 0) = true := by
  decide
theorem test_fetch_V2 : nextIs (stepWord 0x6007 { State.reset with pc := 0xFFE })
    (fun t => t.getV 0 == 7 && t.pc == 0x1000 && t.readByte 0xFFE == 0x60) = true := by decide
theorem test_fetch_V4 : nextIs (step { State.reset with pc := 0xFFF })
    (fun t => t == { State.reset with pc := 0xFFF, fault := .fetchOutOfRange, started := true }) = true := by decide
theorem test_odd_pc_V5 : nextIs (stepWord 0x6105 { State.reset with pc := 0x201 })
    (fun t => t.getV 1 == 5 && t.pc == 0x203) = true := by decide
theorem test_faulted_V6 : step { State.reset with fault := .stackOverflow } = .fault (.stopped .stackOverflow) := rfl
theorem test_tick_V7 : nextIs (stepWord 0x8008 { State.reset with ST := 1 }) (fun t => t.pc == 0x202 && t.ST == 0) = true := by
  decide

/-! ### Control flow (V10 to V30, S6) -/

theorem test_jp_V11 : nextIs (stepWord 0x1FFF State.reset)
    (fun t => t.pc == 0xFFF && nextIs (step t) fun u => u == { t with fault := .fetchOutOfRange }) = true := by decide
theorem test_call_V13 : nextIs (stepWord 0x2300 { State.reset with sp := 15 })
    (fun t => t.stack[15] == 0x202 && t.sp == 16 && t.pc == 0x300) = true := by decide
theorem test_call_V14 : nextIs (stepWord 0x2300 { State.reset with sp := 16 })
    (fun t => t.fault == .stackOverflow && t.pc == 0x200 && t.sp == 16 && t.started) = true := by decide
theorem test_ret_V15 : nextIs (stepWord 0x00EE { State.reset with
      pc := 0x302, sp := 1, stack := State.reset.stack.set 0 0x204 })
    (fun t => t.pc == 0x204 && t.sp == 0 && t.stack[0] == 0x204) = true := by decide
theorem test_ret_V16 : nextIs (stepWord 0x00EE State.reset) (fun t => t.fault == .stackUnderflow && t.pc == 0x200) = true := by
  decide
theorem test_se_byte_V17 : nextIs (stepWord 0x3310 (regs [(3, 0x10)])) (fun t => t.pc == 0x204) = true := by decide
theorem test_se_byte_V18 : nextIs (stepWord 0x3310 (regs [(3, 0x11)])) (fun t => t.pc == 0x202) = true := by decide
theorem test_sne_byte_V19 : nextIs (stepWord 0x4310 (regs [(3, 0x11)])) (fun t => t.pc == 0x204) = true := by decide
theorem test_sne_byte_V20 : nextIs (stepWord 0x4310 (regs [(3, 0x10)])) (fun t => t.pc == 0x202) = true := by decide
theorem test_se_V22 : nextIs (stepWord 0x5127 (regs [(1, 7), (2, 7)])) (fun t => t.pc == 0x204) = true := by decide
theorem test_se_V23 : nextIs (stepWord 0x5120 (regs [(1, 7), (2, 8)])) (fun t => t.pc == 0x202) = true := by decide
theorem test_sne_V24 : nextIs (stepWord 0x9120 (regs [(1, 7), (2, 8)])) (fun t => t.pc == 0x204) = true := by decide
theorem test_sne_V25 : nextIs (stepWord 0x9110 (regs [(1, 7)])) (fun t => t.pc == 0x202) = true := by decide
theorem test_jpV0_V26 : nextIs (stepWord 0xB300 (regs [(0, 4)])) (fun t => t.pc == 0x304) = true := by decide
theorem test_jpV0_V28 : nextIs (stepWord 0xBFFF (regs [(0, 0xFF)])) (fun t => t.pc == 0x10FE && t.fault == .none) = true := by
  decide

/-! ### Loads and the ALU (V40 to V70) -/

theorem test_ldVxByte_V40 : nextIs (stepWord 0x6A42 State.reset) (fun t => t.getV 0xA == 0x42 && t.pc == 0x202) = true := by
  decide
theorem test_addVxByte_V42 : nextIs (stepWord 0x7101 (regs [(1, 0xFF)])) (fun t => t.getV 1 == 0 && t.getV VF == 0) = true := by
  decide
theorem test_addVxByte_V43 : nextIs (stepWord 0x7F03 (regs [(15, 0xFE)])) (fun t => t.getV VF == 1) = true := by decide
theorem test_ldVxVy_V45 : nextIs (stepWord 0x8120 (regs [(2, 9)])) (fun t => t.getV 1 == 9 && t.getV 2 == 9) = true := by decide
theorem test_or_V46 : nextIs (stepWord 0x8121 (regs [(1, 0x0F), (2, 0xF0), (15, 5)]))
    (fun t => t.getV 1 == 0xFF && t.getV VF == 5) = true := by decide
theorem test_and_V47 : nextIs (stepWord 0x8122 (regs [(1, 0x3C), (2, 0x0F)])) (fun t => t.getV 1 == 0x0C) = true := by decide
theorem test_xor_V48 : nextIs (stepWord 0x8123 (regs [(1, 0x3C), (2, 0x0F)])) (fun t => t.getV 1 == 0x33) = true := by decide
theorem test_add_V50 : nextIs (stepWord 0x8124 (regs [(1, 0xFF), (2, 1)])) (fun t => t.getV 1 == 0 && t.getV VF == 1) = true := by
  decide
theorem test_add_V53 : nextIs (stepWord 0x8F24 (regs [(15, 0xFF), (2, 1)])) (fun t => t.getV VF == 1) = true := by decide
theorem test_sub_V56 : nextIs (stepWord 0x8125 (regs [(1, 9), (2, 9)])) (fun t => t.getV 1 == 0 && t.getV VF == 0) = true := by
  decide
theorem test_sub_V57 : nextIs (stepWord 0x8125 (regs [(1, 0), (2, 1)])) (fun t => t.getV 1 == 0xFF && t.getV VF == 0) = true := by
  decide
theorem test_shr_V59 : nextIs (stepWord 0x8126 (regs [(1, 5), (2, 0xAA)]))
    (fun t => t.getV 1 == 2 && t.getV VF == 1 && t.getV 2 == 0xAA) = true := by decide
theorem test_shr_V61 : nextIs (stepWord 0x8F06 (regs [(15, 3)])) (fun t => t.getV VF == 1) = true := by decide
theorem test_subn_V62 : nextIs (stepWord 0x8127 (regs [(1, 3), (2, 10)])) (fun t => t.getV 1 == 7 && t.getV VF == 1) = true := by
  decide
theorem test_subn_V63 : nextIs (stepWord 0x8127 (regs [(1, 10), (2, 3)])) (fun t => t.getV 1 == 249 && t.getV VF == 0) = true := by
  decide
theorem test_shl_V65 : nextIs (stepWord 0x810E (regs [(1, 0x81)])) (fun t => t.getV 1 == 2 && t.getV VF == 1) = true := by decide
theorem test_shl_V67 : nextIs (stepWord 0x8F0E (regs [(15, 0x80)])) (fun t => t.getV VF == 1) = true := by decide
theorem test_rnd_V68 : nextIs (stepWord 0xC30F (State.reset.supplyRandom 0xA7))
    (fun t => t.getV 3 == 7 && t.rand.named == none) = true := by decide
theorem test_rnd_V70 : nextIs (stepWord 0xC3FF (State.reset.supplyRandom 0x5A)) (fun t => t.getV 3 == 0x5A) = true := by
  decide

/-! ### Index and memory (V80 to V100) -/

theorem test_ldI_V80 : nextIs (stepWord 0xA400 State.reset) (fun t => t.I == 0x400 && t.pc == 0x202) = true := by decide
theorem test_addI_V81 : nextIs (stepWord 0xF21E { regs [(2, 1)] with I := 0xFFF })
    (fun t => t.I == 0x1000 && t.getV VF == 0) = true := by decide
theorem test_addI_V82 : nextIs (stepWord 0xF21E { regs [(2, 1)] with I := 0xFFFF }) (fun t => t.I == 0) = true := by decide
theorem test_ldF_V83 : nextIs (stepWord 0xF029 (regs [(0, 5)])) (fun t => t.I == 0x69) = true := by decide
theorem test_ldF_V86 : nextIs (stepWord 0xF029 (regs [(0, 0xFF)])) (fun t => t.I == 0x54B) = true := by decide
theorem test_ldB_V87 : nextIs (stepWord 0xF033 { regs [(0, 254)] with I := 0x400 })
    (fun t => t.readByte 0x400 == 2 && t.readByte 0x401 == 5 && t.readByte 0x402 == 4) = true := by decide
theorem test_ldB_V90 : nextIs (stepWord 0xF033 { regs [(0, 7)] with I := 0xFFE })
    (fun t => t.fault == .dataOutOfRange && t.readByte 0xFFE == 0 && t.pc == 0x200) = true := by decide
theorem test_stRegs_V92 : nextIs (stepWord 0xF255 { regs [(0, 1), (1, 2), (2, 3), (3, 4)] with I := 0x300 })
    (fun t => t.readByte 0x300 == 1 && t.readByte 0x302 == 3 && t.readByte 0x303 == 0 && t.I == 0x300) = true := by decide
theorem test_stRegs_V94 : nextIs (stepWord 0xF155 { regs [(0, 1), (1, 2)] with I := 0xFFF })
    (fun t => t.fault == .dataOutOfRange && t.readByte 0xFFF == 0) = true := by decide
theorem test_ldRegs_V96 : nextIs (stepWord 0xF265 (mem 0x400 [2, 5, 4, 9] { State.reset with I := 0x400 }))
    (fun t => t.getV 0 == 2 && t.getV 1 == 5 && t.getV 2 == 4 && t.getV 3 == 0 && t.I == 0x400) = true := by decide
theorem test_ldRegs_V99 : nextIs (stepWord 0xF065 { State.reset with I := 0x50 }) (fun t => t.getV 0 == 0xF0) = true := by decide

/-! ### Display (V110 to V124) -/

theorem test_cls_V110 : nextIs (stepWord 0x00E0 { State.reset with fb := (State.reset.fb.toggle 0).toggle 2047 })
    (fun t => !t.pixel 0 && !t.pixel 2047 && t.pc == 0x202) = true := by decide
theorem test_drw_V114 : nextIs (stepWord 0xD122 (mem 0x300 [0x80, 0x80] { regs [(2, 31)] with I := 0x300 }))
    (fun t => t.pixel 1984 && t.pixel 0 && !t.pixel 1 && t.getV VF == 0) = true := by decide
theorem test_drw_V124 : nextIs (stepWord 0xDF11 (mem 0x300 [0x80] { regs [(15, 3)] with I := 0x300 }))
    (fun t => t.pixel 3 && !t.pixel 0 && t.getV VF == 0) = true := by decide
/-- V113, over the rasterizer: the row goes on in the next row, not in its own. -/
theorem test_sprite_wraps_V113 : (drawSprite State.reset.fb 60 0 [0xFF]).fb.cell 63 = true ∧
    (drawSprite State.reset.fb 60 0 [0xFF]).fb.cell 67 = true ∧ (drawSprite State.reset.fb 60 0 [0xFF]).fb.cell 0 = false := by
  decide
/-- V120, V121. -/
theorem test_collision_V120 : (drawSprite (State.reset.fb.toggle 0) 0 0 [0x80]).collided = true ∧
    (drawSprite (State.reset.fb.toggle 0) 0 0 []).collided = false := by decide

/-! ### Timers and keys (V130 to V146) -/

theorem test_ldVxDt_V130 : nextIs (stepWord 0xF107 { State.reset with DT := 5 }) (fun t => t.getV 1 == 5 && t.DT == 4) = true := by
  decide
theorem test_ldDtVx_V132 : nextIs (stepWord 0xF015 (regs [(0, 3)])) (fun t => t.DT == 2 && t.ST == 0) = true := by decide
theorem test_ldStVx_V136 : nextIs (stepWord 0xF018 (regs [(0, 1)])) (fun t => t.ST == 0 && !t.soundActive) = true := by decide
theorem test_skp_V138 : nextIs (stepWord 0xE19E { regs [(1, 7)] with keys := keysDown [7] }) (fun t => t.pc == 0x204) = true := by
  decide
theorem test_skp_V140 : nextIs (stepWord 0xE19E { regs [(1, 0x17)] with keys := keysDown [7] }) (fun t => t.pc == 0x202) = true := by
  decide
theorem test_sknp_V142 : nextIs (stepWord 0xE1A1 { regs [(1, 0x17)] with keys := Vector.replicate 16 true })
    (fun t => t.pc == 0x204) = true := by decide
theorem test_sknp_V143 : nextIs (stepWord 0xE1A1 { regs [(1, 7)] with keys := keysDown [7] }) (fun t => t.pc == 0x202) = true := by
  decide
theorem test_ldVxK_V144 : nextIs (stepWord 0xF20A { State.reset with DT := 3 }) (fun t => t.pc == 0x200 && t.DT == 2) = true := by
  decide
theorem test_ldVxK_V145 : nextIs (stepWord 0xF20A { State.reset with keys := keysDown [3, 9] })
    (fun t => t.getV 2 == 3 && t.pc == 0x202) = true := by decide

/-! ### Ports (V150 to V154) -/

theorem test_load_V152 : State.reset.load [] = (.ok, State.reset) := by decide
theorem test_load_V153 : ({ State.reset with started := true }).load [0x13, 0x00] =
    (.error, { State.reset with started := true }) := by decide
theorem test_load_V154 : ((State.reset.load [0xAA]).2.load [0xBB, 0xCC]).2.readByte 0x200 = 0xBB ∧
    ((State.reset.load [0xAA]).2.load [0xBB, 0xCC]).2.readByte 0x201 = 0xCC := by decide
/-- Equal memories are equal data: a byte written back to its reset contents is listed no more. -/
theorem test_memory_canonical : Memory.write (Memory.write [] 0x50 0x11) 0x50 0xF0 = [] := by decide

/-! ### Witnesses: for each statement with hypotheses, states and operands that meet them, at each clause's boundary -/

/-- The reset state with the word `w` at its pc. -/
def fetching (w : Nat) : State := State.reset.withFetchWord 16 w

theorem fetching_nop : Fetches (fetching 0x0001) (.nop 0x0001) := by unfold Fetches; decide

/-- The addresses and font indices at the bounds of the clauses. -/
theorem witness_ResetStateHoldsSpecValues : State.reset.readByte 0x4F = 0 ∧ State.reset.readByte 0x50 = 0xF0 ∧
    State.reset.readByte 0x9F = 0x80 ∧ State.reset.readByte 0xA0 = 0 ∧ State.reset.readByte 0xFFF = 0 := by decide
theorem witness_StepKeepsInvariant : State.reset.Inv ∧ ∃ t, step State.reset = .next t :=
  ⟨⟨rfl, by decide, by decide⟩, _, rfl⟩
/-- The pc's bound: the invariant holds there, and the step takes a fault. -/
theorem witness_StepKeepsInvariant_bound : ({ State.reset with pc := 0x10FE } : State).Inv ∧
    ∃ t, step { State.reset with pc := 0x10FE } = .next t := ⟨⟨rfl, by decide, by decide⟩, _, rfl⟩
theorem witness_ReachableStatesSatisfyInvariant : Reachable (State.reset.setKeys (keysDown [7])) :=
  .moved (m := .keypad (keysDown [7])) .created rfl
theorem witness_DecodeEncodeRoundTrip : Instr.wf (.nop 0x8008#16) = true ∧ Instr.wf (.drw 15 15 15) = true := by decide
theorem witness_DecodeFollowsOpcodeTable : (∃ r ∈ opcodeTable, r.covers 0xF065 = true) ∧
    ∀ r ∈ opcodeTable, r.covers 0xF0FF = false := by decide
/-- Every row's mask and value: the premise of each `Encodes`, at the row's strict form. -/
theorem witness_Encodes :
    0x1FFF#16 &&& 0xF000 = 0x1000 ∧ 0x2FFF#16 &&& 0xF000 = 0x2000 ∧ 0x012E#16 &&& 0xF00F = 0x000E ∧
    0x3FFF#16 &&& 0xF000 = 0x3000 ∧ 0x4FFF#16 &&& 0xF000 = 0x4000 ∧ 0x512F#16 &&& 0xF000 = 0x5000 ∧
    0x912F#16 &&& 0xF000 = 0x9000 ∧ 0xBFFF#16 &&& 0xF000 = 0xB000 ∧ 0x6FFF#16 &&& 0xF000 = 0x6000 ∧
    0x7FFF#16 &&& 0xF000 = 0x7000 ∧ 0x8FF0#16 &&& 0xF00F = 0x8000 ∧ 0x8FF1#16 &&& 0xF00F = 0x8001 ∧
    0x8FF2#16 &&& 0xF00F = 0x8002 ∧ 0x8FF3#16 &&& 0xF00F = 0x8003 ∧ 0x8FF4#16 &&& 0xF00F = 0x8004 ∧
    0x8FF5#16 &&& 0xF00F = 0x8005 ∧ 0x8FF6#16 &&& 0xF00F = 0x8006 ∧ 0x8FF7#16 &&& 0xF00F = 0x8007 ∧
    0x8FFE#16 &&& 0xF00F = 0x800E ∧ 0xCFFF#16 &&& 0xF000 = 0xC000 ∧ 0xAFFF#16 &&& 0xF000 = 0xA000 ∧
    0xFF1E#16 &&& 0xF0FF = 0xF01E ∧ 0xFF29#16 &&& 0xF0FF = 0xF029 ∧ 0xFF33#16 &&& 0xF0FF = 0xF033 ∧
    0xFF55#16 &&& 0xF0FF = 0xF055 ∧ 0xFF65#16 &&& 0xF0FF = 0xF065 ∧ 0x0000#16 &&& 0xF00F = 0x0000 ∧
    0xDFFF#16 &&& 0xF000 = 0xD000 ∧ 0xFF07#16 &&& 0xF0FF = 0xF007 ∧ 0xFF15#16 &&& 0xF0FF = 0xF015 ∧
    0xFF18#16 &&& 0xF0FF = 0xF018 ∧ 0xEFFE#16 &&& 0xF00F = 0xE00E ∧ 0xEFF1#16 &&& 0xF00F = 0xE001 ∧
    0xFF0A#16 &&& 0xF0FF = 0xF00A := by decide
theorem witness_StepRunsDecodedInstruction : Fetches (fetching 0x0001) (.nop 0x0001) ∧
    ∃ t, exec (.nop 0x0001) { fetching 0x0001 with started := true, pc := (fetching 0x0001).pc + 2 } = .next t ∧
      t.fault = .none := ⟨fetching_nop, _, rfl, by decide⟩
theorem witness_StepRunsDecodedInstruction_fault : Fetches (fetching 0x00EE) .ret ∧
    ∃ t, exec .ret { fetching 0x00EE with started := true, pc := (fetching 0x00EE).pc + 2 } = .next t ∧
      t.fault ≠ .none := ⟨by unfold Fetches; decide, _, rfl, by decide⟩
theorem witness_FetchIsBigEndian : ({ State.reset with pc := 0xFFE } : State).pc.toNat ≤ 0xFFE := by decide
theorem witness_FetchOutOfRangeFaults : ({ State.reset with pc := 0xFFF } : State).fault = .none ∧
    0xFFE < ({ State.reset with pc := 0xFFF } : State).pc.toNat := by decide
theorem witness_FaultedCoreHasNoStep : ({ State.reset with fault := .dataOutOfRange } : State).fault ≠ .none := by decide
theorem witness_EveryInstructionAnswersNext : State.reset.fault = .none := rfl
theorem witness_FaultingStepIsPrecise : ∃ t, step { State.reset with pc := 0xFFF } = .next t ∧ t.fault ≠ .none :=
  ⟨_, rfl, by decide⟩
/-- Each clause, on both sides of its bound. -/
theorem witness_FaultsHaveNamedCauses :
    nextIs (exec (.call 0) { State.reset with sp := 16 }) (fun t => t.fault == .stackOverflow) = true ∧
    nextIs (exec (.call 0) { State.reset with sp := 15 }) (fun t => t.fault == .none) = true ∧
    nextIs (exec .ret { State.reset with sp := 0 }) (fun t => t.fault == .stackUnderflow) = true ∧
    nextIs (exec .ret { State.reset with sp := 1 }) (fun t => t.fault == .none) = true ∧
    nextIs (exec (.drw 0 0 1) { State.reset with I := 0x1000 }) (fun t => t.fault == .dataOutOfRange) = true ∧
    nextIs (exec (.drw 0 0 1) { State.reset with I := 0xFFF }) (fun t => t.fault == .none) = true ∧
    nextIs (exec (.drw 0 0 0) { State.reset with I := 0xFFFF }) (fun t => t.fault == .none) = true ∧
    nextIs (exec (.ldB 0) { State.reset with I := 0xFFE }) (fun t => t.fault == .dataOutOfRange) = true ∧
    nextIs (exec (.ldRegs 15) { State.reset with I := 0xFF1 }) (fun t => t.fault == .dataOutOfRange) = true ∧
    nextIs (exec (.stRegs 15) { State.reset with I := 0xFF0 }) (fun t => t.fault == .none) = true := by decide
theorem witness_TimersTickOncePerStep : Fetches (fetching 0x0001) (.nop 0x0001) ∧
    nextIs (step (fetching 0x0001)) (fun t => t.fault == .none) = true := ⟨fetching_nop, by decide⟩
theorem witness_NopOnlyAdvancesAndTicks : unassigned 0x0001 = true ∧ Fetches (fetching 0x0001) (.nop 0x0001) :=
  ⟨by decide, fetching_nop⟩
theorem witness_CallPushesReturnAddress : ({ State.reset with sp := 15 } : State).sp.val < 16 ∧
    ({ State.reset with sp := 16 } : State).sp.val = 16 := by decide
theorem witness_RetPopsReturnAddress : ({ State.reset with sp := 1 } : State).sp.val = (0 : Fin 16).val + 1 ∧
    ({ State.reset with sp := 16 } : State).sp.val = (15 : Fin 16).val + 1 ∧ State.reset.sp.val = 0 := by decide
theorem witness_CallThenRetReturns : ({ State.reset with sp := 15 } : State).sp.val < 16 ∧
    (14 : Fin 16).val ≠ ({ State.reset with sp := 15 } : State).sp.val := by decide
/-- A destination other than VF, for the results of R104 to R108. -/
theorem witness_result_not_VF : (14 : Reg) ≠ VF := by decide
theorem witness_RandomAndMask : (State.reset.supplyRandom 0xA7).rand.named = some 0xA7 ∧
    State.reset.rand.named = none ∧ (0x0F#8).getLsbD 4 = false := by decide
theorem witness_FlagIsZeroOrOne : flagWriter (.drw 15 15 0) = true ∧ State.reset.fault = .none ∧
    nextIs (exec (.drw 15 15 0) State.reset) (fun t => t.fault == .none) = true := by decide
theorem witness_OnlyNamedRegistersChange : (6 : Reg) ∉ destination (.ldRegs 5) ∧
    ¬ (flagWriter (.ldRegs 5) = true ∧ (6 : Reg) = VF) ∧ nextIs (exec (.ldRegs 5) State.reset) (fun _ => true) = true := by decide
theorem witness_StoreBcdDigits : Memory.wf State.reset.mem = true ∧
    ({ State.reset with I := 0xFFD } : State).I.toNat + 2 ≤ 0xFFF ∧
    0xFFF < ({ State.reset with I := 0xFFE } : State).I.toNat + 2 := by decide
theorem witness_StoreRegisterBlock : Memory.wf State.reset.mem = true ∧
    ({ State.reset with I := 0xFFE } : State).I.toNat + (1 : Reg).toNat ≤ 0xFFF ∧
    0xFFF < ({ State.reset with I := 0xFFF } : State).I.toNat + (1 : Reg).toNat ∧ (1 : Reg).toNat ≤ (1 : Reg).toNat := by decide
theorem witness_LoadRegisterBlock : ({ State.reset with I := 0xFF0 } : State).I.toNat + (15 : Reg).toNat ≤ 0xFFF ∧
    0xFFF < ({ State.reset with I := 0xFF1 } : State).I.toNat + (15 : Reg).toNat ∧
    (5 : Reg).toNat < (6 : Reg).toNat := by decide
theorem witness_StoreThenLoadRoundTrips : Memory.wf State.reset.mem = true ∧
    ({ State.reset with I := 0xFF0 } : State).I.toNat + (15 : Reg).toNat ≤ 0xFFF ∧
    ∃ t u : State, exec (.stRegs 15) { State.reset with I := 0xFF0 } = .next t ∧ u.mem = t.mem ∧ u.I = 0xFF0 :=
  ⟨rfl, by decide, _, _, rfl, rfl, rfl⟩
theorem witness_FetchSeesStores : Memory.wf State.reset.mem = true ∧
    ({ State.reset with I := 0xFFE } : State).I.toNat + (1 : Reg).toNat ≤ 0xFFF ∧ (1 : Reg).toNat = (0 : Reg).toNat + 1 ∧
    ∃ t, exec (.stRegs 1) { State.reset with I := 0xFFE } = .next t ∧
      ({ t with pc := 0xFFE } : State).pc.toNat = ({ State.reset with I := 0xFFE } : State).I.toNat + (0 : Reg).toNat :=
  ⟨rfl, by decide, by decide, _, rfl, rfl⟩
/-- One address for each clause: inside, past the right edge, past the bottom, past the corner, past both. -/
theorem witness_SpriteAddressWrapsLinearly : (63 + 0 < 64 ∧ 31 + 0 < 32) ∧ (64 ≤ 63 + 1 ∧ 30 + 0 < 31) ∧
    (63 + 0 < 64 ∧ 32 ≤ 31 + 1) ∧ (64 ≤ 63 + 1 ∧ 31 + 0 = 31) ∧ (64 ≤ 63 + 7 ∧ 32 ≤ 31 + 14) := by decide
theorem witness_DrawTogglesCoveredCells :
    ((0 : Nibble).toNat = 0 ∨ ({ State.reset with I := 0xFFFF } : State).I.toNat + (0 : Nibble).toNat - 1 ≤ 0xFFF) ∧
    ({ State.reset with I := 0xFFB } : State).I.toNat + (5 : Nibble).toNat - 1 ≤ 0xFFF ∧
    0 < (5 : Nibble).toNat ∧ 0xFFF < ({ State.reset with I := 0xFFC } : State).I.toNat + (5 : Nibble).toNat - 1 := by decide
/-- The glyph "0" (F0 first) covers cell 3 and not cell 4. -/
theorem witness_SpriteCovers : SpriteCovers State.reset 0x50 0 0 1 3 ∧ ¬ SpriteCovers State.reset 0x50 0 0 1 4 := by
  refine ⟨⟨0, 3, by decide, by decide, by decide, by decide⟩, ?_⟩
  rintro ⟨r, c, hr, hc, hb, ha⟩
  obtain rfl : r = 0 := by omega
  obtain rfl : c = 4 := by change _ = 4 at ha; omega
  revert hb
  decide
theorem witness_DrawTwiceRestoresScreen : ∃ t, exec (.drw 1 2 5) { State.reset with I := 0x69 } = .next t ∧
    ∃ u : State, u.fb = t.fb ∧ u.I = 0x69 ∧ u.getV 1 = 0 ∧ u.getV 2 = 0 ∧ u.mem = [] :=
  ⟨_, rfl, { State.reset with I := 0x69, fb := _ }, rfl, rfl, rfl, rfl, rfl⟩
theorem witness_ReadDelayTimer : Fetches (fetching 0xF107) (.ldVxDt 1) := by unfold Fetches; decide
theorem witness_SetDelayTimer : Fetches (fetching 0xF015) (.ldDtVx 0) := by unfold Fetches; decide
theorem witness_SetSoundTimer : Fetches (fetching 0xF018) (.ldStVx 0) := by unfold Fetches; decide
theorem witness_SkipOnKey : ((regs [(1, 15)]).getV 1).toNat = (15 : Fin 16).val ∧ 16 ≤ ((regs [(1, 16)]).getV 1).toNat := by decide
theorem witness_KeyWaitTakesLowestKey : (keysDown [3, 9])[(3 : Fin 16)] = true ∧
    (∀ j : Fin 16, j.val < 3 → (keysDown [3, 9])[j] = false) ∧ ∀ k : Fin 16, State.reset.keys[k] = false := by decide
theorem witness_KeyWaitHoldsPc : Fetches (fetching 0xFF0A) (.ldVxK 15) ∧
    (∀ k : Fin 16, (fetching 0xFF0A).keys[k] = false) ∧ Fetches ((fetching 0xFF0A).setKeys (keysDown [15])) (.ldVxK 15) ∧
    (keysDown [15])[(15 : Fin 16)] = true ∧ (∀ j : Fin 16, j.val < 15 → (keysDown [15])[j] = false) := by
  unfold Fetches; decide
theorem witness_StatePartsHaveNamedWriters :
    nextIs (exec (.call 0) State.reset) (fun t => t.sp != 0 && t.stack != State.reset.stack) = true ∧
    nextIs (exec (.addI 0) (regs [(0, 1)])) (fun t => t.I != 0) = true ∧
    nextIs (exec (.ldDtVx 0) (regs [(0, 1)])) (fun t => t.DT != 0) = true ∧
    nextIs (exec (.ldStVx 0) (regs [(0, 1)])) (fun t => t.ST != 0) = true ∧
    nextIs (exec (.stRegs 0) (regs [(0, 1)])) (fun t => t.mem != []) = true ∧
    nextIs (exec (.drw 0 0 1) { State.reset with I := 0x50 }) (fun t => t.fb != State.reset.fb) = true := by decide
/-- Different keys for an operation that reads none; the same inputs, the byte at another place, for a step. -/
theorem witness_OnlyTupleAndInputsDecide :
    (State.reset.toArchState = (State.reset.setKeys (keysDown [7])).toArchState ∧ readsKeys .cls = false ∧
      readsRandom .cls = false ∧ ∃ t, exec .cls State.reset = .next t) ∧
    ({ State.reset with rand := ⟨some 7, 0⟩ } : State).randomByte =
      ({ State.reset with rand := ⟨some 7, 5⟩ } : State).randomByte ∧
    ∃ t, step { State.reset with rand := ⟨some 7, 0⟩ } = .next t ∧ t.fault = .none :=
  ⟨⟨rfl, rfl, rfl, _, rfl⟩, rfl, _, rfl, by decide⟩
/-- An idle end at the highest pc that has one. -/
theorem witness_IdleEndOnlyTicks : (({ State.reset with pc := 0xFFE } : State).withFetchWord 16 0x1FFE).idleEnd := by
  unfold State.idleEnd; decide
theorem witness_LoadCopiesImageOrRefuses : State.reset.started = false ∧ Memory.wf State.reset.mem = true ∧
    (List.replicate 3584 (0xAA : Byte)).length ≤ 3584 ∧ 3584 < (List.replicate 3585 (0xAA : Byte)).length :=
  ⟨rfl, rfl, by rw [List.length_replicate], by rw [List.length_replicate]; decide⟩

end Sys2Proof.Tests
end

section
/-! The state (10_state.md): what it holds at creation, its invariant, and who writes each part of it.

`ExecEffect` says once what Execute can leave, one constructor per kind of effect. The invariant's step lemma and the
frames (which registers change, which parts have which writers) are case analyses over it. -/

namespace Sys2Proof.Machine

/-! ### A block of registers written changes no other part (R117) -/

section
variable (s : State) (k : Nat) (bs : List Byte)

@[simp] theorem State.setRegsFrom_I : (s.setRegsFrom k bs).I = s.I := by rw [s.setRegsFrom_eq]
@[simp] theorem State.setRegsFrom_pc : (s.setRegsFrom k bs).pc = s.pc := by rw [s.setRegsFrom_eq]
@[simp] theorem State.setRegsFrom_sp : (s.setRegsFrom k bs).sp = s.sp := by rw [s.setRegsFrom_eq]
@[simp] theorem State.setRegsFrom_stack : (s.setRegsFrom k bs).stack = s.stack := by rw [s.setRegsFrom_eq]
@[simp] theorem State.setRegsFrom_DT : (s.setRegsFrom k bs).DT = s.DT := by rw [s.setRegsFrom_eq]
@[simp] theorem State.setRegsFrom_ST : (s.setRegsFrom k bs).ST = s.ST := by rw [s.setRegsFrom_eq]
@[simp] theorem State.setRegsFrom_mem : (s.setRegsFrom k bs).mem = s.mem := by rw [s.setRegsFrom_eq]
@[simp] theorem State.setRegsFrom_fb : (s.setRegsFrom k bs).fb = s.fb := by rw [s.setRegsFrom_eq]
@[simp] theorem State.setRegsFrom_fault : (s.setRegsFrom k bs).fault = s.fault := by rw [s.setRegsFrom_eq]
@[simp] theorem State.setRegsFrom_started : (s.setRegsFrom k bs).started = s.started := by rw [s.setRegsFrom_eq]
@[simp] theorem State.setRegsFrom_keys : (s.setRegsFrom k bs).keys = s.keys := by rw [s.setRegsFrom_eq]
@[simp] theorem State.setRegsFrom_rand : (s.setRegsFrom k bs).rand = s.rand := by rw [s.setRegsFrom_eq]

end

/-! ### Small facts about operands -/

/-- An address field names an address of memory (R64, R66). -/
theorem zextAddr_le (nnn : Addr) : (zextAddr nnn).toNat ≤ 0xFFF := by
  have := nnn.isLt
  simp only [zextAddr, BitVec.toNat_setWidth]
  omega

/-- The largest target there is: JP V0's unmasked sum (R24, R96). -/
theorem zextByte_add_zextAddr_le (b : Byte) (nnn : Addr) : (zextByte b + zextAddr nnn).toNat ≤ 0x10FE := by
  have hb := b.isLt
  have hn := nnn.isLt
  simp only [zextByte, zextAddr, BitVec.toNat_add, BitVec.toNat_setWidth]
  omega

/-- A flag is exactly 0 or 1 (R21, R110). -/
theorem flagByte_eq_zero_or_one (f : Bool) : flagByte f = 0 ∨ flagByte f = 1 := by
  cases f
  · exact .inl rfl
  · exact .inr rfl

/-- LD Vx, [I] names V0 to V[x], inclusive (R117). -/
theorem mem_destination_ldRegs {x r : Reg} : r ∈ destination (.ldRegs x) ↔ r.toNat ≤ x.toNat := by
  have hx := x.isLt
  simp only [destination, List.mem_map, List.mem_range]
  constructor
  · rintro ⟨k, hk, rfl⟩
    simp only [BitVec.toNat_ofNat]
    omega
  · intro h
    exact ⟨r.toNat, by omega, BitVec.eq_of_toNat_eq (by simp)⟩

/-! ### What Execute can leave -/

/-- The kinds of effect an operation can have on the executing state `s`: a fault, a move of the pc, registers, or one
named part of the state. The operation is named as closely as the writers of a part ask. -/
inductive ExecEffect (s : State) : Instr → State → Prop
  /-- A fault, with no change of the operation's own (R85). -/
  | faulted {i : Instr} (code : FaultCode) (hc : code ≠ .none) : ExecEffect s i (s.withFault code)
  /-- A skip, taken or not (R16); a NOP is one never taken (R87). -/
  | skipped {i : Instr} (c : Bool) (hi : flagWriter i = false) : ExecEffect s i (s.skipIf c)
  /-- A jump by an operand (R90, R96). -/
  | jumped {i : Instr} (target : Word) (ht : target.toNat ≤ 0x10FE) (hi : flagWriter i = false) :
      ExecEffect s i (s.setPc target)
  /-- The key wait undoes the advance (R134). -/
  | waited (x : Reg) : ExecEffect s (.ldVxK x) (s.setPc (s.pc - 2))
  /-- CALL pushes the advanced pc (R91). -/
  | called (nnn : Addr) (h : s.sp.val < 16) : ExecEffect s (.call nnn) { s with
      pc := zextAddr nnn, stack := s.stack.set s.sp.val s.pc h, sp := ⟨s.sp.val + 1, by omega⟩ }
  /-- RET jumps to the top slot (R89). -/
  | returned (h : 0 < s.sp.val) : ExecEffect s .ret { s with
      pc := s.stack[s.sp.val - 1]'(by omega), sp := ⟨s.sp.val - 1, by omega⟩ }
  /-- One register written, and no flag. -/
  | loaded {i : Instr} {x : Reg} (v : Byte) (hx : x ∈ destination i) (hi : flagWriter i = false) :
      ExecEffect s i (s.setV x v)
  /-- A block of registers written (R117). -/
  | loadedBlock (x : Reg) (bs : List Byte) (hl : bs.length = x.toNat + 1) :
      ExecEffect s (.ldRegs x) (s.setRegsFrom 0 bs)
  /-- One register written and then VF (R111). -/
  | flagged {i : Instr} {x : Reg} (v : Byte) (f : Bool) (hx : x ∈ destination i) (hi : flagWriter i = true) :
      ExecEffect s i (s.setResultFlag x v f)
  /-- The index register written (R112 to R114). -/
  | indexed {i : Instr} (v : Word) (hi : (∃ nnn, i = .ldI nnn) ∨ (∃ x, i = .addI x) ∨ ∃ x, i = .ldF x) :
      ExecEffect s i (s.setI v)
  /-- The delay timer set (R129). -/
  | delaySet (x : Reg) (v : Byte) : ExecEffect s (.ldDtVx x) (s.setDT v)
  /-- The sound timer set (R130). -/
  | soundSet (x : Reg) (v : Byte) : ExecEffect s (.ldStVx x) (s.setST v)
  /-- The screen cleared (R120). -/
  | cleared : ExecEffect s .cls (s.setFb Framebuffer.allOff)
  /-- A sprite drawn, VF last (R121). -/
  | drawn (x y : Reg) (n : Nibble) (fb : Framebuffer) (f : Bool) :
      ExecEffect s (.drw x y n) ((s.setFb fb).setV VF (flagByte f))
  /-- A block stored through I, all of it in range (R115, R116). -/
  | stored {i : Instr} (bs : List Byte) (hb : s.I.toNat + bs.length ≤ 4096)
      (hi : (∃ x, i = .ldB x) ∨ ∃ x, i = .stRegs x) :
      ExecEffect s i { s with mem := Memory.writeList s.mem s.I.toNat bs }

section
variable {s t : State}

theorem execEffect_ret (h : exec .ret s = .next t) : ExecEffect s .ret t := by
  change execRet s = .next t at h
  by_cases hsp : 0 < s.sp.val
  · rw [execRet_of_pos s hsp] at h; cases h
    exact .returned hsp
  · rw [execRet_of_empty s (by omega)] at h; cases h
    exact .faulted _ nofun

theorem execEffect_call {nnn : Addr} (h : exec (.call nnn) s = .next t) : ExecEffect s (.call nnn) t := by
  change execCall nnn s = .next t at h
  by_cases hsp : s.sp.val < 16
  · rw [execCall_of_lt nnn s hsp] at h; cases h
    exact .called nnn hsp
  · rw [execCall_of_full nnn s (by omega)] at h; cases h
    exact .faulted _ nofun

theorem execEffect_drw {x y : Reg} {n : Nibble} (h : exec (.drw x y n) s = .next t) :
    ExecEffect s (.drw x y n) t := by
  change execDrw x y n s = .next t at h
  by_cases hn : n.toNat = 0 ∨ s.I.toNat + n.toNat ≤ 4096
  · rw [execDrw_of_le x y n s hn] at h; cases h
    exact .drawn x y n _ _
  · rw [execDrw_of_gt x y n s (by omega) (by omega)] at h; cases h
    exact .faulted _ nofun

theorem execEffect_ldVxK {x : Reg} (h : exec (.ldVxK x) s = .next t) : ExecEffect s (.ldVxK x) t := by
  change execLdVxK x s = .next t at h
  unfold execLdVxK at h
  split at h
  · cases h; exact .loaded _ (List.mem_singleton_self x) rfl
  · cases h; exact .waited x

theorem execEffect_ldRegs {x : Reg} (h : exec (.ldRegs x) s = .next t) : ExecEffect s (.ldRegs x) t := by
  change execLdRegs x s = .next t at h
  by_cases hb : s.I.toNat + (x.toNat + 1) ≤ 4096
  · rw [execLdRegs_of_le x s hb] at h; cases h
    exact .loadedBlock x _ (by simp)
  · rw [execLdRegs_of_gt x s (by omega)] at h; cases h
    exact .faulted _ nofun

/-- The two stores, LD B and LD [I], Vx, through their shared operation. -/
theorem execEffect_of_storeAtI {i : Instr} {bs : List Byte} (hi : (∃ x, i = .ldB x) ∨ ∃ x, i = .stRegs x)
    (hn : bs ≠ []) (h : s.storeAtI bs = .next t) : ExecEffect s i t := by
  by_cases hb : s.I.toNat + bs.length ≤ 4096
  · rw [State.storeAtI_of_le s hb] at h; cases h
    exact .stored bs hb hi
  · rw [State.storeAtI_of_gt s hn (by omega)] at h; cases h
    exact .faulted _ nofun

/-- V0 to V[x] are never no bytes: V0 is among them (R116). -/
theorem State.regsUpTo_ne_nil (s : State) (x : Reg) : s.regsUpTo x ≠ [] :=
  List.ne_nil_of_length_pos (by simp)

/-- Every next state that Execute answers is one of the effects. -/
theorem execEffect_of_exec {i : Instr} (h : exec i s = .next t) : ExecEffect s i t := by
  cases i with
  | ret => exact execEffect_ret h
  | call nnn => exact execEffect_call h
  | drw x y n => exact execEffect_drw h
  | ldVxK x => exact execEffect_ldVxK h
  | ldRegs x => exact execEffect_ldRegs h
  | ldB x => exact execEffect_of_storeAtI (.inl ⟨x, rfl⟩) (List.cons_ne_nil _ _) h
  | stRegs x => exact execEffect_of_storeAtI (.inr ⟨x, rfl⟩) (s.regsUpTo_ne_nil x) h
  | cls => cases h; exact .cleared
  | jp nnn => cases h; exact .jumped _ (Nat.le_trans (zextAddr_le nnn) (by decide)) rfl
  | jpV0 nnn => cases h; exact .jumped _ (zextByte_add_zextAddr_le _ nnn) rfl
  | seVxByte | sneVxByte | seVxVy | sneVxVy | skp | sknp => cases h; exact .skipped _ rfl
  | nop w => cases h; exact .skipped false rfl
  | ldVxByte x | addVxByte x | ldVxVy x | orVxVy x | andVxVy x | xorVxVy x | rnd x | ldVxDt x =>
    cases h; exact .loaded _ (List.mem_singleton_self x) rfl
  | addVxVy x | sub x | shr x | subn x | shl x =>
    cases h; exact .flagged _ _ (List.mem_singleton_self x) rfl
  | ldI nnn => cases h; exact .indexed _ (.inl ⟨nnn, rfl⟩)
  | addI x => cases h; exact .indexed _ (.inr (.inl ⟨x, rfl⟩))
  | ldF x => cases h; exact .indexed _ (.inr (.inr ⟨x, rfl⟩))
  | ldDtVx x => cases h; exact .delaySet x _
  | ldStVx x => cases h; exact .soundSet x _

end

/-! ### The invariant (R24, R44) -/

/-- The invariant speaks of the memory, the pc and the call stack alone. -/
theorem State.Inv.congr {s t : State} (h : s.Inv) (hm : t.mem = s.mem) (hp : t.pc = s.pc)
    (hs : t.stack = s.stack) : t.Inv :=
  ⟨hm ▸ h.mem_wf, hp ▸ h.pc_le, hs ▸ h.stack_le⟩

/-- A move of the pc within R24's bound keeps the invariant. -/
theorem State.Inv.setPc {s : State} (h : s.Inv) {target : Word} (ht : target.toNat ≤ 0x10FE) :
    (s.setPc target).Inv :=
  ⟨h.mem_wf, ht, h.stack_le⟩

/-- A block written inside the address space keeps the invariant. -/
theorem State.Inv.writeList {s : State} (h : s.Inv) {a : Nat} {bs : List Byte} (hb : a + bs.length ≤ 4096) :
    ({ s with mem := Memory.writeList s.mem a bs } : State).Inv :=
  ⟨Memory.wf_writeList h.mem_wf bs hb, h.pc_le, h.stack_le⟩

/-- A slot written with a pushed pc leaves every slot within R24's bound. -/
theorem stack_set_le {stack : Vector Word 16} (h : ∀ k : Fin 16, stack[k].toNat ≤ 0x1000) {j : Nat} (hj : j < 16)
    {a : Word} (ha : a.toNat ≤ 0x1000) (k : Fin 16) : ((stack.set j a hj)[k]).toNat ≤ 0x1000 := by
  rw [Fin.getElem_fin, Vector.getElem_set]
  split
  · exact ha
  · exact h k

/-- Execute keeps the invariant from a state whose pc was just advanced: from at most 0x0FFE, so without a wrap. The
lower bound is for the key wait, which undoes the advance. -/
theorem ExecEffect.inv {s t : State} {i : Instr} (h : ExecEffect s i t) (hs : s.Inv) (hlo : 2 ≤ s.pc.toNat)
    (hhi : s.pc.toNat ≤ 0x1000) : t.Inv := by
  cases h with
  | skipped c =>
    cases c with
    | false => exact hs
    | true => exact hs.setPc (by bv_omega)
  | jumped target ht => exact hs.setPc ht
  | waited => exact hs.setPc (by bv_omega)
  | called nnn hsp =>
    exact ⟨hs.mem_wf, Nat.le_trans (zextAddr_le nnn) (by decide), stack_set_le hs.stack_le hsp hhi⟩
  | returned hsp =>
    have hslot := hs.stack_le ⟨s.sp.val - 1, by omega⟩
    exact ⟨hs.mem_wf, Nat.le_trans hslot (by decide), hs.stack_le⟩
  | stored bs hb => exact hs.writeList hb
  | _ => exact hs.congr (by simp) (by simp) (by simp)

/-- The state Execute begins in, when the fetch was in range: the pc advanced without a wrap (R80, R81). -/
theorem State.beginExecute_pc_toNat {s : State} (h : s.pc.toNat ≤ 0xFFE) :
    s.beginExecute.pc.toNat = s.pc.toNat + 2 := by
  rw [State.beginExecute_pc]
  bv_omega

/-- A word is fetched only from a pc whose two bytes both exist (R81). -/
theorem State.pc_le_of_fetchWord {s : State} {w : Word} (h : s.fetchWord = some w) : s.pc.toNat ≤ 0xFFE := by
  by_contra hpc
  rw [State.fetchWord_of_gt s (by omega)] at h
  cases h

/-- How a step ends keeps the invariant, by the tick or by the precise fault. -/
theorem State.Inv.conclude {s u : State} (hs : s.Inv) (hu : u.Inv) : (s.conclude u).Inv := by
  by_cases hf : u.fault = .none
  · rw [State.conclude_of_noFault s hf]; exact hu.congr rfl rfl rfl
  · rw [State.conclude_of_fault s hf]; exact hs.congr rfl rfl rfl

theorem step_keeps_inv {s t : State} (hs : s.Inv) (h : step s = .next t) : t.Inv := by
  obtain ⟨-, ⟨-, rfl⟩ | ⟨w, u, hw, he, rfl⟩⟩ := step_next_cases h
  · exact hs.congr rfl rfl rfl
  · have hle := State.pc_le_of_fetchWord hw
    have hpc := State.beginExecute_pc_toNat hle
    have hb : s.beginExecute.Inv := ⟨hs.mem_wf, by omega, hs.stack_le⟩
    exact hs.conclude ((execEffect_of_exec he).inv hb (by omega) (by omega))

theorem reset_inv : State.reset.Inv where
  mem_wf := Memory.wf_reset
  pc_le := by decide
  stack_le k := by simp [State.reset]

/-! ### The load port (R156, R157) -/

theorem State.load_of_fits {s : State} {bytes : List Byte} (hs : s.started = false) (hl : bytes.length ≤ 3584) :
    s.load bytes = (.ok, { s with mem := Memory.writeList s.mem 0x200 bytes }) := by
  rw [State.load, if_neg (by simp [hs]), if_neg (Nat.not_lt.2 hl)]

theorem State.load_of_refused {s : State} {bytes : List Byte} (h : s.started = true ∨ 3584 < bytes.length) :
    s.load bytes = (.error, s) := by
  by_cases hs : s.started = true
  · rw [State.load, if_pos hs]
  · rw [State.load, if_neg hs, if_pos (h.resolve_left hs)]

theorem State.Inv.load {s : State} (h : s.Inv) (bytes : List Byte) : (s.load bytes).2.Inv := by
  by_cases hr : s.started = true ∨ 3584 < bytes.length
  · rw [State.load_of_refused hr]; exact h
  · obtain ⟨hs, hl⟩ := not_or.1 hr
    rw [State.load_of_fits (Bool.eq_false_of_not_eq_true hs) (Nat.le_of_not_lt hl)]
    exact h.writeList (by omega)

/-- Every move of the driver keeps the invariant. -/
theorem move_keeps_inv {s t : State} {m : Move} (hs : s.Inv) (h : s.move m = .next t) : t.Inv := by
  cases m with
  | create => cases h; exact reset_inv.congr rfl rfl rfl
  | load bytes => cases h; exact hs.load bytes
  | keypad keys => cases h; exact hs.congr rfl rfl rfl
  | random b => cases h; exact hs.congr rfl rfl rfl
  | step => exact step_keeps_inv hs h

/-- Settles O3: every effect of Execute keeps the invariant from the advanced state, and so does the end of the step. -/
theorem stepKeepsInvariant : Obligations.StepKeepsInvariant := fun _ _ => step_keeps_inv

/-- Settles O4, by induction on how the state is reached. -/
theorem reachableStatesSatisfyInvariant : Obligations.ReachableStatesSatisfyInvariant := by
  intro s h
  induction h with
  | created => exact reset_inv
  | moved _ hm ih => exact move_keeps_inv ih hm

/-- Settles O2. -/
theorem resetSatisfiesInvariant : Obligations.ResetSatisfiesInvariant := reset_inv

/-! ### Who writes the registers (R20, R21, R111) -/

/-- Settles O37: a flag writer that does not fault wrote VF last, as a result's flag or as a sprite's collision. -/
theorem flagIsZeroOrOne : Obligations.FlagIsZeroOrOne := by
  intro i s t hi _ he ht
  cases execEffect_of_exec he with
  | faulted code hc => exact absurd ht hc
  | flagged v f => rw [State.setResultFlag_getV_VF]; exact flagByte_eq_zero_or_one f
  | drawn x y n fb f => rw [State.getV_setV_self]; exact flagByte_eq_zero_or_one f
  | indexed v hx => rcases hx with ⟨_, rfl⟩ | ⟨_, rfl⟩ | ⟨_, rfl⟩ <;> cases hi
  | stored bs hb hx => rcases hx with ⟨_, rfl⟩ | ⟨_, rfl⟩ <;> cases hi
  | skipped _ hf | jumped _ _ hf | loaded _ _ hf => rw [hf] at hi; cases hi
  | _ => cases hi

/-- Settles O38, effect by effect. -/
theorem onlyNamedRegistersChange : Obligations.OnlyNamedRegistersChange := by
  intro i s t r he hr hvf
  cases execEffect_of_exec he with
  | loaded v hx => exact State.getV_setV_of_ne s v (ne_of_mem_of_not_mem hx hr).symm
  | loadedBlock x bs hl =>
    have hx := x.isLt
    have hrx : x.toNat < r.toNat := by rwa [mem_destination_ldRegs, Nat.not_le] at hr
    rw [State.setRegsFrom_getV s bs (by omega), dif_neg (by omega)]
  | flagged v f hx hi =>
    rw [State.setResultFlag_getV s _ r v f fun e => hvf ⟨hi, e⟩, if_neg (ne_of_mem_of_not_mem hx hr).symm]
  | drawn x y n fb f => exact State.getV_setV_of_ne _ _ fun e => hvf ⟨rfl, e⟩
  | skipped c => exact State.skipIf_getV s c r
  | _ => rfl

/-! ### Who writes the other parts (R26 to R30, R35, R51, R125) -/

section
variable {s t : State} {i : Instr} (h : ExecEffect s i t)
include h

theorem ExecEffect.sp_writers : t.sp ≠ s.sp → i = .ret ∨ ∃ nnn, i = .call nnn := by
  cases h with
  | returned => exact fun _ => .inl rfl
  | called nnn => exact fun _ => .inr ⟨nnn, rfl⟩
  | _ => simp

theorem ExecEffect.stack_writers : t.stack ≠ s.stack → ∃ nnn, i = .call nnn := by
  cases h with
  | called nnn => exact fun _ => ⟨nnn, rfl⟩
  | _ => simp

theorem ExecEffect.I_writers : t.I ≠ s.I → (∃ nnn, i = .ldI nnn) ∨ (∃ x, i = .addI x) ∨ ∃ x, i = .ldF x := by
  cases h with
  | indexed v hi => exact fun _ => hi
  | _ => simp

theorem ExecEffect.DT_writers : t.DT ≠ s.DT → ∃ x, i = .ldDtVx x := by
  cases h with
  | delaySet x => exact fun _ => ⟨x, rfl⟩
  | _ => simp

theorem ExecEffect.ST_writers : t.ST ≠ s.ST → ∃ x, i = .ldStVx x := by
  cases h with
  | soundSet x => exact fun _ => ⟨x, rfl⟩
  | _ => simp

theorem ExecEffect.mem_writers : t.mem ≠ s.mem → (∃ x, i = .ldB x) ∨ ∃ x, i = .stRegs x := by
  cases h with
  | stored bs hb hi => exact fun _ => hi
  | _ => simp

theorem ExecEffect.fb_writers : t.fb ≠ s.fb → i = .cls ∨ ∃ x y n, i = .drw x y n := by
  cases h with
  | cleared => exact fun _ => .inl rfl
  | drawn x y n => exact fun _ => .inr ⟨x, y, n, rfl⟩
  | _ => simp

/-- No operation writes the inputs of a step (R35, R36). -/
theorem ExecEffect.inputs_eq : t.keys = s.keys ∧ t.rand = s.rand := by
  cases h <;> simp

end

/-- Settles O57: the writers of each part, effect by effect. -/
theorem statePartsHaveNamedWriters : Obligations.StatePartsHaveNamedWriters := by
  intro i s t he
  have h := execEffect_of_exec he
  exact ⟨h.sp_writers, h.stack_writers, h.I_writers, h.DT_writers, h.ST_writers, h.mem_writers, h.fb_writers,
    h.inputs_eq⟩

/-! ### What decides the architectural state (R19, R35 to R37, R79) -/

/-- An answer that agrees with a next state on the architectural state is a next state. -/
theorem archAnswer_eq_next {o : Answer} {a : ArchState} (h : archAnswer o = .next a) :
    ∃ v, o = .next v ∧ v.toArchState = a := by
  cases o with
  | next v => exact ⟨v, rfl, Host.Outcome.next.inj h⟩
  | fault r => cases h
  | refused r => cases h

section
variable {s u : State} (h : s.toArchState = u.toArchState)
include h

theorem State.readByte_congr (a : Nat) : s.readByte a = u.readByte a :=
  congrArg (fun p : ArchState => Memory.read p.mem a) h

theorem State.fetchWord_congr : s.fetchWord = u.fetchWord := by
  have hpc : s.pc = u.pc := congrArg ArchState.pc h
  simp only [State.fetchWord, hpc, State.readByte_congr h]

theorem State.withFault_toArchState (code : FaultCode) :
    (s.withFault code).toArchState = (u.withFault code).toArchState :=
  congrArg (fun p : ArchState => { p with fault := code, started := true }) h

theorem State.beginExecute_toArchState : s.beginExecute.toArchState = u.beginExecute.toArchState :=
  congrArg (fun p : ArchState => { p with started := true, pc := p.pc + 2 }) h

theorem State.endStep_toArchState : s.endStep.toArchState = u.endStep.toArchState :=
  congrArg (fun p : ArchState => { p with DT := countDown p.DT, ST := countDown p.ST }) h

end

/-- How a step ends is settled by the architectural states it began in and was left in. -/
theorem State.conclude_toArchState {s u t v : State} (h : s.toArchState = u.toArchState)
    (e : t.toArchState = v.toArchState) : (s.conclude t).toArchState = (u.conclude v).toArchState := by
  have hf : t.fault = v.fault := congrArg ArchState.fault e
  by_cases ht : t.fault = .none
  · rw [State.conclude_of_noFault s ht, State.conclude_of_noFault u (hf ▸ ht), State.endStep_toArchState e]
  · rw [State.conclude_of_fault s ht, State.conclude_of_fault u (hf ▸ ht), hf, State.withFault_toArchState h]

theorem archAnswer_concludeAnswer_congr {s u : State} (h : s.toArchState = u.toArchState) {o p : Answer}
    (ho : archAnswer o = archAnswer p) :
    archAnswer (concludeAnswer s o) = archAnswer (concludeAnswer u p) := by
  cases o with
  | next t =>
    obtain ⟨v, rfl, e⟩ := archAnswer_eq_next ho.symm
    exact congrArg Host.Outcome.next (State.conclude_toArchState h e.symm)
  | fault r =>
    cases p with
    | fault => exact ho
    | next | refused => cases ho
  | refused r =>
    cases p with
    | refused => exact ho
    | next | fault => cases ho

/-- A store through I answers a next state, with the block stored or with the fault raised. -/
theorem State.storeAtI_answers_next (s : State) (bs : List Byte) : ∃ t, s.storeAtI bs = .next t := by
  rw [State.storeAtI]
  split
  · exact ⟨_, rfl⟩
  · exact ⟨_, rfl⟩

/-! Two states that agree on the architectural state, with the inputs of each. -/

section
variable (a : ArchState) (k k' : Keypad) (r r' : RandomInput)

theorem State.readBlock_inputs (p n : Nat) : State.readBlock ⟨a, k, r⟩ p n = State.readBlock ⟨a, k', r'⟩ p n := by
  induction n generalizing p with
  | zero => rfl
  | succ n ih => rw [State.readBlock, State.readBlock, ih]; rfl

theorem archAnswer_skipIf_inputs (c : Bool) :
    archAnswer (.next (State.skipIf ⟨a, k, r⟩ c)) = archAnswer (.next (State.skipIf ⟨a, k', r'⟩ c)) :=
  congrArg Host.Outcome.next (State.skipIf_toArchState c rfl)

theorem archAnswer_storeAtI_inputs (bs : List Byte) :
    archAnswer (State.storeAtI ⟨a, k, r⟩ bs) = archAnswer (State.storeAtI ⟨a, k', r'⟩ bs) := by
  obtain ⟨t, ht⟩ := State.storeAtI_answers_next ⟨a, k, r⟩ bs
  obtain ⟨v, hv, e⟩ := State.storeAtI_toArchState (s := ⟨a, k, r⟩) (u := ⟨a, k', r'⟩) bs rfl ht
  rw [ht, hv]
  exact congrArg Host.Outcome.next e.symm

theorem archAnswer_execRet_inputs : archAnswer (execRet ⟨a, k, r⟩) = archAnswer (execRet ⟨a, k', r'⟩) := by
  by_cases hsp : 0 < a.sp.val
  · rw [execRet_of_pos _ hsp, execRet_of_pos _ hsp]; rfl
  · have hempty : a.sp.val = 0 := by omega
    rw [execRet_of_empty _ hempty, execRet_of_empty _ hempty]; rfl

theorem archAnswer_execCall_inputs (nnn : Addr) :
    archAnswer (execCall nnn ⟨a, k, r⟩) = archAnswer (execCall nnn ⟨a, k', r'⟩) := by
  by_cases hsp : a.sp.val < 16
  · rw [execCall_of_lt nnn _ hsp, execCall_of_lt nnn _ hsp]; rfl
  · have hfull : a.sp.val = 16 := by omega
    rw [execCall_of_full nnn _ hfull, execCall_of_full nnn _ hfull]; rfl

theorem archAnswer_execDrw_inputs (x y : Reg) (n : Nibble) :
    archAnswer (execDrw x y n ⟨a, k, r⟩) = archAnswer (execDrw x y n ⟨a, k', r'⟩) := by
  rw [execDrw, execDrw, State.readBlock_inputs a k k' r r']
  cases State.readBlock ⟨a, k', r'⟩ a.I.toNat n.toNat with
  | none => rfl
  | some sprite => rfl

theorem archAnswer_execLdRegs_inputs (x : Reg) :
    archAnswer (execLdRegs x ⟨a, k, r⟩) = archAnswer (execLdRegs x ⟨a, k', r'⟩) := by
  rw [execLdRegs, execLdRegs, State.readBlock_inputs a k k' r r']
  cases State.readBlock ⟨a, k', r'⟩ a.I.toNat (x.toNat + 1) with
  | none => rfl
  | some bytes => exact congrArg Host.Outcome.next (State.setRegsFrom_toArchState bytes 0 rfl)

theorem archAnswer_execLdVxK_inputs (x : Reg) :
    archAnswer (execLdVxK x ⟨a, k, r⟩) = archAnswer (execLdVxK x ⟨a, k, r'⟩) := by
  rw [execLdVxK, execLdVxK, State.firstKey, State.firstKey]
  cases firstPressed k 0 16 with
  | none => rfl
  | some key => rfl

end

/-- Execute's architectural answer is settled by the architectural state, by the keypad where the operation reads it, and
by the random byte where it is RND (R19, R83). -/
theorem archAnswer_exec_congr (i : Instr) {s u : State} (h : s.toArchState = u.toArchState)
    (hk : readsKeys i = true → s.keys = u.keys) (hr : readsRandom i = true → s.randomByte = u.randomByte) :
    archAnswer (exec i s) = archAnswer (exec i u) := by
  obtain ⟨a, k, r⟩ := s
  obtain ⟨_, k', r'⟩ := u
  cases h
  cases i with
  | seVxByte | sneVxByte | seVxVy | sneVxVy => exact archAnswer_skipIf_inputs a k k' r r' _
  | skp | sknp => cases hk rfl; exact archAnswer_skipIf_inputs a k k r r' _
  | ldVxK x => cases hk rfl; exact archAnswer_execLdVxK_inputs a k r r' x
  | rnd x nn =>
    change archAnswer (execRnd x nn _) = archAnswer (execRnd x nn _)
    rw [execRnd, execRnd, hr rfl]; rfl
  | ret => exact archAnswer_execRet_inputs a k k' r r'
  | call nnn => exact archAnswer_execCall_inputs a k k' r r' nnn
  | drw x y n => exact archAnswer_execDrw_inputs a k k' r r' x y n
  | ldB | stRegs => exact archAnswer_storeAtI_inputs a k k' r r' _
  | ldRegs x => exact archAnswer_execLdRegs_inputs a k k' r r' x
  | _ => rfl

/-- A step's architectural answer is settled by the architectural state, the keypad and the random byte (R79). -/
theorem archAnswer_step_congr {s u : State} (h : s.toArchState = u.toArchState) (hk : s.keys = u.keys)
    (hr : s.randomByte = u.randomByte) : archAnswer (step s) = archAnswer (step u) := by
  have hf : s.fault = u.fault := congrArg ArchState.fault h
  have hw := State.fetchWord_congr h
  by_cases hs : s.fault = .none
  · have hu : u.fault = .none := hf ▸ hs
    cases hword : s.fetchWord with
    | none =>
      rw [step_of_fetchWord_none hs hword, step_of_fetchWord_none hu (hw ▸ hword)]
      exact congrArg Host.Outcome.next (State.withFault_toArchState h _)
    | some w =>
      rw [step_of_fetchWord hs hword, step_of_fetchWord hu (hw ▸ hword)]
      have hb := State.beginExecute_toArchState h
      exact archAnswer_concludeAnswer_congr h (archAnswer_exec_congr (decode w) hb (fun _ => hk) (fun _ => hr))
  · rw [step_of_fault hs, step_of_fault (hf ▸ hs), hf]

/-- What a step does to its inputs: it keeps the keypad, and unless it faults it turns to the source's next byte. -/
theorem step_inputs {s t : State} (h : step s = .next t) :
    t.keys = s.keys ∧ (t.fault = .none → t.rand = s.rand.following) := by
  obtain ⟨-, ⟨-, rfl⟩ | ⟨w, u, -, he, rfl⟩⟩ := step_next_cases h
  · exact ⟨rfl, nofun⟩
  · obtain ⟨hkeys, hrand⟩ := (execEffect_of_exec he).inputs_eq
    by_cases hu : u.fault = .none
    · rw [State.conclude_of_noFault s hu]
      exact ⟨hkeys, fun _ => congrArg RandomInput.following hrand⟩
    · rw [State.conclude_of_fault s hu]
      exact ⟨rfl, fun hf => absurd hf hu⟩

/-- Settles O58: the answers of Execute and of the step agree on the eleven fields, and `archStep` is the step over one
state that has them. -/
theorem onlyTupleAndInputsDecide : Obligations.OnlyTupleAndInputsDecide := by
  refine ⟨fun i s u t h hk hr he => ?_, fun s u t h hk hr hs => ?_, fun s => ?_, fun _ _ => step_inputs⟩
  · exact archAnswer_eq_next (by rw [← archAnswer_exec_congr i h hk hr, he]; rfl)
  · obtain ⟨v, hv, e⟩ := archAnswer_eq_next (o := step u) (a := t.toArchState)
      (by rw [← archAnswer_step_congr h hk hr, hs]; rfl)
    exact ⟨v, hv, e, by rw [(step_inputs hv).1, (step_inputs hs).1, hk]⟩
  · exact archAnswer_step_congr rfl rfl rfl

/-! ### The state at creation (R39, R154) -/

/-- Outside the font region memory is created 0 (R39). -/
theorem Memory.blank_of_outside {a : Nat} (h : a < 0x50 ∨ 0xA0 ≤ a) : Memory.blank a = 0 :=
  if_neg (by simp only [Config.FONTBASE, Config.FONTSIZE]; omega)

theorem FONT_length : Config.FONT.length = 80 := rfl

/-- In the font region memory is created with the bytes of FONT (R33, R39). -/
theorem Memory.blank_font {k : Nat} (h : k < Config.FONT.length) : Memory.blank (0x50 + k) = Config.FONT[k] := by
  have hk : k < 80 := FONT_length ▸ h
  rw [Memory.blank, if_pos (by simp only [Config.FONTBASE, Config.FONTSIZE]; omega), Config.FONTBASE,
    Nat.add_sub_cancel_left, List.getD_eq_getElem _ _ h]

theorem reset_getV (r : Reg) : State.reset.getV r = 0 := by
  simp [State.getV, State.reset]

/-- The created framebuffer is the cleared one (R39, R120). -/
theorem reset_pixel (a : Fin 2048) : State.reset.pixel a = false := Framebuffer.cell_allOff a

/-- Settles O1, field by field. -/
theorem resetStateHoldsSpecValues : Obligations.ResetStateHoldsSpecValues :=
  ⟨reset_getV, rfl, rfl, rfl, fun k => by simp [State.reset], rfl, rfl,
    fun _ ha => Memory.blank_of_outside (ha.imp_right And.left), FONT_length, fun _ => Memory.blank_font,
    reset_pixel, rfl, rfl, fun k => by simp [State.reset]⟩

end Sys2Proof.Machine
end

section
/-! Memory (20_memory.md): the fetch is big-endian, and it reads what LD [I], Vx stored. -/

namespace Sys2Proof.Machine

/-! ### The fetched word (R48) -/

/-- A decoder reads the word its two bytes combine to (R48, R63). -/
theorem decodeBytes_pair (hi lo : Byte) : decodeBytes [hi, lo] = .ok (decode (wordOfBytes hi lo), []) := rfl

/-- Settles O12: fetch and decoder both combine their two bytes by `wordOfBytes`. -/
theorem fetchIsBigEndian : Obligations.FetchIsBigEndian :=
  ⟨fun s h => ⟨_, s.fetchWord_of_le h, Laws.wordOfBytes_toNat _ _⟩,
    fun hi lo => ⟨_, decodeBytes_pair hi lo, Laws.wordOfBytes_toNat hi lo⟩⟩

/-! ### The bytes a register store leaves (R116) -/

@[simp] theorem regOfNat_of_toNat (r : Reg) : regOfNat r.toNat = r := ((regOfNat_eq_iff r.isLt r).2 rfl).symm

/-- Byte `r` of the stored block is `V[r]`. -/
theorem State.regsUpTo_getElem (s : State) {x r : Reg} (h : r.toNat < (s.regsUpTo x).length) :
    (s.regsUpTo x)[r.toNat] = s.getV r := by
  simp [State.regsUpTo]

/-- After the registers V0 to V[x] are stored at I, the byte at I + r is `V[r]`. -/
theorem State.read_writeList_regsUpTo {s : State} {x r : Reg} (hm : Memory.wf s.mem = true)
    (hI : s.I.toNat + x.toNat ≤ 0xFFF) (hr : r.toNat ≤ x.toNat) :
    Memory.read (Memory.writeList s.mem s.I.toNat (s.regsUpTo x)) (s.I.toNat + r.toNat) = s.getV r := by
  have hlen := s.regsUpTo_length x
  have hfits : s.I.toNat + (s.regsUpTo x).length ≤ 4096 := by omega
  have hlt : r.toNat < (s.regsUpTo x).length := by omega
  rw [Memory.read_writeList hm _ hfits hlt, s.regsUpTo_getElem hlt]

/-- Settles O46: the store leaves `V[r]` and `V[r + 1]` at the two addresses the fetch at I + r reads. -/
theorem fetchSeesStores : Obligations.FetchSeesStores := by
  intro x r q s hm hI hq hqx
  refine ⟨_, execStRegs_of_le x s (by omega), fun u hmem hpc => ?_⟩
  have hnext : s.I.toNat + r.toNat + 1 = s.I.toNat + q.toNat := by omega
  have hhigh : u.readByte (s.I.toNat + r.toNat) = s.getV r := by
    rw [State.readByte, hmem, State.read_writeList_regsUpTo hm hI (by omega)]
  have hlow : u.readByte (s.I.toNat + q.toNat) = s.getV q := by
    rw [State.readByte, hmem, State.read_writeList_regsUpTo hm hI hqx]
  rw [u.fetchWord_of_le (by omega), hpc, hnext, hhigh, hlow]

end Sys2Proof.Machine
end

section
/-! Encoding (30_encoding.md): the round trip, and which words are instructions.

`TableAnswer` says once what decode can answer to a word: the operation of an opcode-table row that covers it, or a NOP
over a word that R73 lists. What is left is finite, about the 34 rows: they exclude each other, and none covers a word
that R73 lists. -/

namespace Sys2Proof

open Laws

/-! ### The round trip (R65, R76, R78) -/

/-- The strict form of every well-formed instruction decodes to it: the constructors' lemmas, put together. -/
theorem decode_encode : ∀ {i : Instr}, i.wf = true → decode (encode i) = i
  | .cls => Encoding.cls
  | .ret => Encoding.ret
  | .jp nnn => Encoding.jp nnn
  | .call nnn => Encoding.call nnn
  | .seVxByte x nn => Encoding.seVxByte x nn
  | .sneVxByte x nn => Encoding.sneVxByte x nn
  | .seVxVy x y => Encoding.seVxVy x y
  | .ldVxByte x nn => Encoding.ldVxByte x nn
  | .addVxByte x nn => Encoding.addVxByte x nn
  | .ldVxVy x y => Encoding.ldVxVy x y
  | .orVxVy x y => Encoding.orVxVy x y
  | .andVxVy x y => Encoding.andVxVy x y
  | .xorVxVy x y => Encoding.xorVxVy x y
  | .addVxVy x y => Encoding.addVxVy x y
  | .sub x y => Encoding.sub x y
  | .shr x y => Encoding.shr x y
  | .subn x y => Encoding.subn x y
  | .shl x y => Encoding.shl x y
  | .sneVxVy x y => Encoding.sneVxVy x y
  | .ldI nnn => Encoding.ldI nnn
  | .jpV0 nnn => Encoding.jpV0 nnn
  | .rnd x nn => Encoding.rnd x nn
  | .drw x y n => Encoding.drw x y n
  | .skp x => Encoding.skp x
  | .sknp x => Encoding.sknp x
  | .ldVxDt x => Encoding.ldVxDt x
  | .ldVxK x => Encoding.ldVxK x
  | .ldDtVx x => Encoding.ldDtVx x
  | .ldStVx x => Encoding.ldStVx x
  | .addI x => Encoding.addI x
  | .ldF x => Encoding.ldF x
  | .ldB x => Encoding.ldB x
  | .stRegs x => Encoding.stRegs x
  | .ldRegs x => Encoding.ldRegs x
  | .nop w => Encoding.nop w

/-- Settles O5: the two bytes combine to the encoded word, and that word decodes to the instruction. -/
theorem decodeEncodeRoundTrip : Obligations.DecodeEncodeRoundTrip := by
  intro i rest hi
  calc decodeBytes (encodeBytes i ++ rest)
      = .ok (decode (encode i), rest) := decodeBytes_of_word (encode i) rest
    _ = .ok (i, rest) := by rw [decode_encode hi]

/-! ### The fields in numbers (R64) -/

section
variable (w : Word)

theorem fieldC_toNat : (fieldC w).toNat = w.toNat / 4096 := by
  have := w.isLt
  simp only [fieldC, BitVec.extractLsb'_toNat, Nat.shiftRight_eq_div_pow]
  omega

theorem fieldNNN_toNat : (fieldNNN w).toNat = w.toNat % 4096 := by
  simp [fieldNNN]

theorem fieldX_toNat : (fieldX w).toNat = w.toNat / 256 % 16 := by
  simp [fieldX, Nat.shiftRight_eq_div_pow]

theorem fieldY_toNat : (fieldY w).toNat = w.toNat / 16 % 16 := by
  simp [fieldY, Nat.shiftRight_eq_div_pow]

theorem fieldNN_toNat : (fieldNN w).toNat = w.toNat % 256 := by
  simp [fieldNN]

theorem fieldN_toNat : (fieldN w).toNat = w.toNat % 16 := by
  simp [fieldN]

end

/-- Settles O9, field by field. -/
theorem fieldsAreWhereTheSpecPutsThem : Obligations.FieldsAreWhereTheSpecPutsThem := fun w =>
  ⟨fieldC_toNat w, fieldNNN_toNat w, fieldX_toNat w, fieldY_toNat w, fieldNN_toNat w, fieldN_toNat w⟩

/-! ### What a decoder answers, row by row (R67 to R71, R78) -/

/-- The unassigned words by their fields: R73's list. -/
theorem unassigned_iff_fields (w : Word) : unassigned w = true ↔
    (fieldC w = 0x0#4 ∧ fieldN w ≠ 0x0#4 ∧ fieldN w ≠ 0xE#4) ∨
    (fieldC w = 0x8#4 ∧ fieldN w ∈ [0x8#4, 0x9#4, 0xA#4, 0xB#4, 0xC#4, 0xD#4, 0xF#4]) ∨
    (fieldC w = 0xE#4 ∧ fieldN w ≠ 0x1#4 ∧ fieldN w ≠ 0xE#4) ∨
    (fieldC w = 0xF#4 ∧ fieldNN w ∉ [0x07#8, 0x0A#8, 0x15#8, 0x18#8, 0x1E#8, 0x29#8, 0x33#8, 0x55#8, 0x65#8]) := by
  simp [unassigned, fieldC, fieldN, fieldNN, or_assoc, and_assoc]

/-- The answer `i` to the word `w` is the opcode table's: the operation of a row that covers the word, or a NOP over a
word that R73 lists. -/
inductive TableAnswer (w : Word) : Instr → Prop
  | row {i : Instr} (r : OpcodeRow) (hr : r ∈ opcodeTable) (hw : r.covers w = true)
      (hi : i.mnemonic = r.mnemonic) : TableAnswer w i
  | nop (hw : unassigned w = true) : TableAnswer w (.nop w)

section
variable {w : Word} {i : Instr} {c : BitVec 4} (m : String)

/-- A row keyed by the class alone (R67). -/
theorem TableAnswer.of_class (hr : ⟨m, 0xF000#16, packA c 0⟩ ∈ opcodeTable) (hc : fieldC w = c)
    (hi : i.mnemonic = m) : TableAnswer w i :=
  .row _ hr (by rw [OpcodeRow.covers, mask_class_of_fieldC, hc, beq_self_eq_true]) hi

/-- A row keyed by the class and the low nibble (R68 to R70). -/
theorem TableAnswer.of_nibble {n : Nibble} (hr : ⟨m, 0xF00F#16, packXYN c 0 0 n⟩ ∈ opcodeTable)
    (hc : fieldC w = c) (hn : fieldN w = n) (hi : i.mnemonic = m) : TableAnswer w i :=
  .row _ hr (by rw [OpcodeRow.covers, mask_nibble_of_fields, hc, hn, beq_self_eq_true]) hi

/-- A row keyed by the class and the low byte (R71). -/
theorem TableAnswer.of_byte {nn : Byte} (hr : ⟨m, 0xF0FF#16, packXB c 0 nn⟩ ∈ opcodeTable) (hc : fieldC w = c)
    (hnn : fieldNN w = nn) (hi : i.mnemonic = m) : TableAnswer w i :=
  .row _ hr (by rw [OpcodeRow.covers, mask_byte_of_fields, hc, hnn, beq_self_eq_true]) hi

end

section
variable {w : Word}

theorem tableAnswer_decodeClass0 (hc : fieldC w = 0x0#4) : TableAnswer w (decodeClass0 w) := by
  unfold decodeClass0
  split
  case h_1 hn => exact .of_nibble "CLS" (by decide) hc hn rfl
  case h_2 hn => exact .of_nibble "RET" (by decide) hc hn rfl
  case h_3 h0 hE => exact .nop ((unassigned_iff_fields w).2 (.inl ⟨hc, h0, hE⟩))

theorem tableAnswer_decodeClass8 (hc : fieldC w = 0x8#4) : TableAnswer w (decodeClass8 w) := by
  unfold decodeClass8
  split
  case h_1 hn => exact .of_nibble "LD_VX_VY" (by decide) hc hn rfl
  case h_2 hn => exact .of_nibble "OR" (by decide) hc hn rfl
  case h_3 hn => exact .of_nibble "AND" (by decide) hc hn rfl
  case h_4 hn => exact .of_nibble "XOR" (by decide) hc hn rfl
  case h_5 hn => exact .of_nibble "ADD_VX_VY" (by decide) hc hn rfl
  case h_6 hn => exact .of_nibble "SUB" (by decide) hc hn rfl
  case h_7 hn => exact .of_nibble "SHR" (by decide) hc hn rfl
  case h_8 hn => exact .of_nibble "SUBN" (by decide) hc hn rfl
  case h_9 hn => exact .of_nibble "SHL" (by decide) hc hn rfl
  case h_10 =>
    refine .nop ((unassigned_iff_fields w).2 (.inr (.inl ⟨hc, ?_⟩)))
    generalize fieldN w = n at *
    revert n
    decide

theorem tableAnswer_decodeClassE (hc : fieldC w = 0xE#4) : TableAnswer w (decodeClassE w) := by
  unfold decodeClassE
  split
  case h_1 hn => exact .of_nibble "SKP" (by decide) hc hn rfl
  case h_2 hn => exact .of_nibble "SKNP" (by decide) hc hn rfl
  case h_3 hE h1 => exact .nop ((unassigned_iff_fields w).2 (.inr (.inr (.inl ⟨hc, h1, hE⟩))))

theorem tableAnswer_decodeClassF (hc : fieldC w = 0xF#4) : TableAnswer w (decodeClassF w) := by
  unfold decodeClassF
  split
  case h_1 hnn => exact .of_byte "LD_VX_DT" (by decide) hc hnn rfl
  case h_2 hnn => exact .of_byte "LD_VX_K" (by decide) hc hnn rfl
  case h_3 hnn => exact .of_byte "LD_DT_VX" (by decide) hc hnn rfl
  case h_4 hnn => exact .of_byte "LD_ST_VX" (by decide) hc hnn rfl
  case h_5 hnn => exact .of_byte "ADD_I" (by decide) hc hnn rfl
  case h_6 hnn => exact .of_byte "LD_F" (by decide) hc hnn rfl
  case h_7 hnn => exact .of_byte "LD_B" (by decide) hc hnn rfl
  case h_8 hnn => exact .of_byte "ST_REGS" (by decide) hc hnn rfl
  case h_9 hnn => exact .of_byte "LD_REGS" (by decide) hc hnn rfl
  case h_10 =>
    refine .nop ((unassigned_iff_fields w).2 (.inr (.inr (.inr ⟨hc, ?_⟩))))
    simp_all

end

/-- Decode answers what the opcode table says. -/
theorem tableAnswer_decode (w : Word) : TableAnswer w (decode w) := by
  unfold decode
  split
  case h_1 hc => exact tableAnswer_decodeClass0 hc
  case h_2 hc => exact .of_class "JP" (by decide) hc rfl
  case h_3 hc => exact .of_class "CALL" (by decide) hc rfl
  case h_4 hc => exact .of_class "SE_VX_BYTE" (by decide) hc rfl
  case h_5 hc => exact .of_class "SNE_VX_BYTE" (by decide) hc rfl
  case h_6 hc => exact .of_class "SE_VX_VY" (by decide) hc rfl
  case h_7 hc => exact .of_class "LD_VX_BYTE" (by decide) hc rfl
  case h_8 hc => exact .of_class "ADD_VX_BYTE" (by decide) hc rfl
  case h_9 hc => exact tableAnswer_decodeClass8 hc
  case h_10 hc => exact .of_class "SNE_VX_VY" (by decide) hc rfl
  case h_11 hc => exact .of_class "LD_I" (by decide) hc rfl
  case h_12 hc => exact .of_class "JP_V0" (by decide) hc rfl
  case h_13 hc => exact .of_class "RND" (by decide) hc rfl
  case h_14 hc => exact .of_class "DRW" (by decide) hc rfl
  case h_15 hc => exact tableAnswer_decodeClassE hc
  case h_16 =>
    refine tableAnswer_decodeClassF ?_
    generalize fieldC w = c at *
    revert c
    decide

/-! ### Consequences of the table -/

/-- No row of the table is the NOP's. -/
theorem mnemonic_ne_nop_of_mem {r : OpcodeRow} (hr : r ∈ opcodeTable) : r.mnemonic ≠ "NOP" := by
  revert r
  decide

/-- Two rows that agree on the bits both look at are of one operation. -/
theorem mnemonic_eq_of_agree : ∀ r ∈ opcodeTable, ∀ r' ∈ opcodeTable,
    r.value &&& r'.mask = r'.value &&& r.mask → r.mnemonic = r'.mnemonic := by
  decide

theorem mnemonic_eq_of_covers {w : Word} {r r' : OpcodeRow} (hr : r ∈ opcodeTable) (hr' : r' ∈ opcodeTable)
    (hw : r.covers w = true) (hw' : r'.covers w = true) : r.mnemonic = r'.mnemonic := by
  refine mnemonic_eq_of_agree r hr r' hr' ?_
  rw [← eq_of_beq hw, ← eq_of_beq hw', BitVec.and_assoc, BitVec.and_assoc, BitVec.and_comm r.mask]

/-- A row's mask keeps every field that its class is keyed by, and its own value is an assigned word. -/
theorem opcodeTable_row_shape : ∀ r ∈ opcodeTable, unassigned r.value = false ∧
    (r.mask = 0xF000#16 ∧ fieldC r.value ∉ [0x0#4, 0x8#4, 0xE#4, 0xF#4] ∨
      r.mask = 0xF00F#16 ∧ fieldC r.value ≠ 0xF#4 ∨ r.mask = 0xF0FF#16 ∧ fieldC r.value = 0xF#4) := by
  decide

/-- A word that a row covers is not one that R73 lists: its key is the row's. -/
theorem unassigned_eq_false_of_covers {w : Word} {r : OpcodeRow} (hr : r ∈ opcodeTable) (hw : r.covers w = true) :
    unassigned w = false := by
  have hv : w &&& r.mask = r.value := eq_of_beq hw
  obtain ⟨hassigned, hshape⟩ := opcodeTable_row_shape r hr
  rw [← hassigned, Bool.eq_iff_iff, unassigned_iff_fields, unassigned_iff_fields]
  obtain ⟨hm, hk⟩ | ⟨hm, hk⟩ | ⟨hm, hk⟩ := hshape <;> rw [hm] at hv
  · simp only [List.mem_cons, List.not_mem_nil, or_false, not_or] at hk
    simp [fieldC_of_mask_class hv, hk]
  · obtain ⟨hc, hn⟩ := fields_of_mask_nibble hv
    simp [hc, hn, hk]
  · obtain ⟨hc, hnn⟩ := fields_of_mask_byte hv
    simp [hc, hnn, hk]

/-- The one term that can be ill formed is a NOP. -/
theorem Instr.wf_of_mnemonic_ne_nop {i : Instr} (h : i.mnemonic ≠ "NOP") : i.wf = true := by
  cases i with
  | nop w => exact absurd rfl h
  | _ => rfl

section
variable {w : Word} {i : Instr} (h : TableAnswer w i)
include h

theorem TableAnswer.wf : i.wf = true := by
  cases h with
  | row r hr _ hi => exact Instr.wf_of_mnemonic_ne_nop (hi ▸ mnemonic_ne_nop_of_mem hr)
  | nop hw => exact hw

theorem TableAnswer.mnemonic_eq {r : OpcodeRow} (hr : r ∈ opcodeTable) (hw : r.covers w = true) :
    i.mnemonic = r.mnemonic := by
  cases h with
  | row r' hr' hw' hi => exact hi.trans (mnemonic_eq_of_covers hr' hr hw' hw)
  | nop hu => simp [unassigned_eq_false_of_covers hr hw] at hu

theorem TableAnswer.eq_nop_of_uncovered (hu : ∀ r ∈ opcodeTable, r.covers w = false) : i = .nop w := by
  cases h with
  | row r hr hw => simp [hu r hr] at hw
  | nop => rfl

end

/-- Settles O7, from the table's answer to the word. -/
theorem decodeFollowsOpcodeTable : Obligations.DecodeFollowsOpcodeTable := fun w =>
  ⟨fun _ hr hw => (tableAnswer_decode w).mnemonic_eq hr hw, (tableAnswer_decode w).eq_nop_of_uncovered⟩

theorem wf_decode (w : Word) : (decode w).wf = true := (tableAnswer_decode w).wf

/-- Settles O6: decode answers a well-formed instruction, so the round trip applies to it. -/
theorem everyWordDecodesWellFormed : Obligations.EveryWordDecodesWellFormed := fun w =>
  ⟨wf_decode w, decode_encode (wf_decode w)⟩

/-! ### The NOP words (R73) -/

/-- A NOP is well formed over an unassigned word only, and decode answers nothing ill formed. -/
theorem decode_eq_nop_iff_unassigned (w : Word) : decode w = .nop w ↔ unassigned w = true := by
  constructor
  · intro h
    have hwf := wf_decode w
    rwa [h] at hwf
  · exact Encoding.nop w

/-- Settles O8: R73's list by its fields, and the fields in numbers. The two spellings of the list differ at
class 8 only. -/
theorem unassignedWordsAreNops : Obligations.UnassignedWordsAreNops := by
  intro w
  rw [decode_eq_nop_iff_unassigned, unassigned_iff_fields]
  simp only [List.mem_cons, List.not_mem_nil, or_false, ne_eq, BitVec.toNat_eq, fieldC_toNat, fieldN_toNat,
    fieldNN_toNat, BitVec.toNat_ofNat, Nat.reducePow, Nat.reduceMod]
  refine or_congr_right (or_congr_left (and_congr_right fun _ => ?_))
  omega

end Sys2Proof
end

section
/-! The step cycle (40_cycle_and_dispatch.md): what a step that fetches an instruction answers, that every operation
completes, and that a fault is precise. -/

namespace Sys2Proof.Machine

/-! ### The step of a fetched instruction (R79 to R85) -/

section
variable {s : State} {i : Instr}

/-- The step decodes the two bytes the fetch reads, and executes over the advanced state. -/
theorem step_of_fetches (h : Fetches s i) : step s = concludeAnswer s (exec i s.beginExecute) := by
  obtain ⟨hfault, hpc, hbytes⟩ := h
  rw [decodeBytes_pair] at hbytes
  obtain rfl : decode _ = i := congrArg Prod.fst (Except.ok.inj hbytes)
  exact step_of_fetchWord hfault (s.fetchWord_of_le hpc)

theorem step_next_of_fetches {t : State} (h : Fetches s i) (he : exec i s.beginExecute = .next t) :
    step s = .next (s.conclude t) := by
  rw [step_of_fetches h, he, concludeAnswer_next]

end

/-! ### Every operation completes (R83, R163) -/

section
variable (s : State)

theorem execRet_answers_next : ∃ t, execRet s = .next t := by
  obtain hsp | hsp := Nat.eq_zero_or_pos s.sp.val
  · exact ⟨_, execRet_of_empty s hsp⟩
  · exact ⟨_, execRet_of_pos s hsp⟩

theorem execCall_answers_next (nnn : Addr) : ∃ t, execCall nnn s = .next t := by
  by_cases hsp : s.sp.val < 16
  · exact ⟨_, execCall_of_lt nnn s hsp⟩
  · exact ⟨_, execCall_of_full nnn s (by omega)⟩

theorem execDrw_answers_next (x y : Reg) (n : Nibble) : ∃ t, execDrw x y n s = .next t := by
  by_cases hb : n.toNat = 0 ∨ s.I.toNat + n.toNat ≤ 4096
  · exact ⟨_, execDrw_of_le x y n s hb⟩
  · exact ⟨_, execDrw_of_gt x y n s (by omega) (by omega)⟩

theorem execLdRegs_answers_next (x : Reg) : ∃ t, execLdRegs x s = .next t := by
  by_cases hb : s.I.toNat + (x.toNat + 1) ≤ 4096
  · exact ⟨_, execLdRegs_of_le x s hb⟩
  · exact ⟨_, execLdRegs_of_gt x s (by omega)⟩

theorem execLdVxK_answers_next (x : Reg) : ∃ t, execLdVxK x s = .next t := by
  rw [execLdVxK]
  cases s.firstKey with
  | some k => exact ⟨_, rfl⟩
  | none => exact ⟨_, rfl⟩

/-- The operations with more than one answer are those above; every other one has a single next state. -/
theorem exec_answers_next (i : Instr) : ∃ t, exec i s = .next t := by
  cases i with
  | ret => exact execRet_answers_next s
  | call nnn => exact execCall_answers_next s nnn
  | drw x y n => exact execDrw_answers_next s x y n
  | ldB x => exact s.storeAtI_answers_next _
  | stRegs x => exact s.storeAtI_answers_next _
  | ldRegs x => exact execLdRegs_answers_next s x
  | ldVxK x => exact execLdVxK_answers_next s x
  | _ => exact ⟨_, rfl⟩

end

theorem step_answers_next {s : State} (hf : s.fault = .none) : ∃ t, step s = .next t := by
  cases hw : s.fetchWord with
  | none => exact ⟨_, step_of_fetchWord_none hf hw⟩
  | some w =>
    obtain ⟨u, hu⟩ := exec_answers_next s.beginExecute (decode w)
    exact ⟨_, by rw [step_of_fetchWord hf hw, hu, concludeAnswer_next]⟩

/-! ### `started` (R38) -/

/-- No operation clears `started`. -/
theorem ExecEffect.started {s t : State} {i : Instr} (h : ExecEffect s i t) (hs : s.started = true) :
    t.started = true := by
  cases h with
  | faulted => rfl
  | _ => simpa using hs

theorem State.conclude_started (s : State) {u : State} (hu : u.started = true) : (s.conclude u).started = true := by
  by_cases hf : u.fault = .none
  · rw [State.conclude_of_noFault s hf]; exact hu
  · rw [State.conclude_of_fault s hf]; rfl

theorem step_sets_started {s t : State} (h : step s = .next t) : t.started = true := by
  obtain ⟨-, ⟨-, rfl⟩ | ⟨w, u, -, he, rfl⟩⟩ := step_next_cases h
  · rfl
  · exact s.conclude_started ((execEffect_of_exec he).started rfl)

/-- Settles O15: Execute answers a next state operation by operation, and so the step does, whether its fetch is in
range or not. -/
theorem everyInstructionAnswersNext : Obligations.EveryInstructionAnswersNext := by
  refine ⟨fun i s => exec_answers_next s i, fun s hf => ?_⟩
  obtain ⟨t, ht⟩ := step_answers_next hf
  exact ⟨t, ht, step_sets_started ht⟩

/-! ### Precise faults (R81, R85, R86, R136) -/

/-- A step that concludes with a fault has dropped whatever Execute left. -/
theorem State.conclude_eq_withFault {s u : State} (h : (s.conclude u).fault ≠ .none) :
    s.conclude u = s.withFault (s.conclude u).fault := by
  by_cases hf : u.fault = .none
  · rw [State.conclude_of_noFault s hf] at h
    exact absurd hf h
  · rw [State.conclude_of_fault s hf]; rfl

/-- Settles O16: the fault is the fetch's, or Execute's and the step gives its own state back. -/
theorem faultingStepIsPrecise : Obligations.FaultingStepIsPrecise := by
  intro s t h hfault
  obtain ⟨-, ⟨-, rfl⟩ | ⟨w, u, -, -, rfl⟩⟩ := step_next_cases h
  · rfl
  · exact State.conclude_eq_withFault hfault

/-- Settles O11: Execute's answer decides whether the step ends by the tick or by the precise fault. -/
theorem stepRunsDecodedInstruction : Obligations.StepRunsDecodedInstruction := by
  intro s t i hi he
  have hstep : step s = .next (s.conclude t) := step_next_of_fetches hi he
  refine ⟨fun hf => ?_, fun hf => ?_⟩
  · rw [hstep, State.conclude_of_noFault s hf]; rfl
  · rw [hstep, State.conclude_of_fault s hf]; rfl

/-- Settles O13: a pc above 0x0FFE fetches no word. -/
theorem fetchOutOfRangeFaults : Obligations.FetchOutOfRangeFaults := fun s hf hpc =>
  step_of_fetchWord_none hf (s.fetchWord_of_gt hpc)

/-- Settles O14: the guard of the step. -/
theorem faultedCoreHasNoStep : Obligations.FaultedCoreHasNoStep := fun _ => step_of_fault

/-! ### NOP (R87) -/

/-- The frame of the phases around Execute, the advance and the tick. -/
theorem onlyChanges_endStep_beginExecute (s : State) :
    OnlyChanges [] [.pc, .DT, .ST, .started, .rand] s s.beginExecute.endStep := by
  refine ⟨fun r _ => rfl, fun p hp => ?_⟩
  cases p with
  | pc | DT | ST | started | rand => exact absurd (by decide) hp
  | mem => exact fun _ => rfl
  | _ => exact rfl

/-- A step that fetches a NOP is the advance and the tick. -/
theorem step_of_fetches_nop {s : State} {w : Word} (h : Fetches s (.nop w)) :
    step s = .next s.beginExecute.endStep := by
  rw [step_next_of_fetches h rfl, State.conclude_of_noFault s (t := s.beginExecute) h.1]

/-- Settles O19: Execute keeps the advanced state, so the step's frame is that of its own advance and tick. -/
theorem nopOnlyAdvancesAndTicks : Obligations.NopOnlyAdvancesAndTicks := by
  refine ⟨fun w => (decode_eq_nop_iff_unassigned w).2, fun w s => rfl, fun w s h => ?_⟩
  exact ⟨s.beginExecute.endStep, step_of_fetches_nop h, rfl, rfl, countDown_toNat s.DT, countDown_toNat s.ST,
    onlyChanges_endStep_beginExecute s⟩

end Sys2Proof.Machine
end

section
/-! Control flow (41_control_flow.md): jumps, the call stack, and the skips.

The frames all come from one: whatever a control-flow operation writes is among the pc, the stack pointer and the
stack. The words of an opcode-table row are decoded through the fields that its mask keeps. -/

namespace Sys2Proof.Machine

open Laws

/-! ### The words of an opcode-table row (R67, R68) -/

section
variable {value : Word} {c : BitVec 4} {i : Word → Instr}

/-- A row keyed by the class alone: it is enough that decode answers `i` over the class. -/
theorem encodes_of_class (hv : fieldC value = c) (h : ∀ w, fieldC w = c → decode w = i w) :
    Encodes 0xF000 value i := fun w hw =>
  h w ((fieldC_of_mask_class hw).trans hv)

/-- A row keyed by the class and the low nibble. -/
theorem encodes_of_nibble {n : Nibble} (hc : fieldC value = c) (hn : fieldN value = n)
    (h : ∀ w, fieldC w = c → fieldN w = n → decode w = i w) : Encodes 0xF00F value i := fun w hw =>
  have ⟨hwc, hwn⟩ := fields_of_mask_nibble hw
  h w (hwc.trans hc) (hwn.trans hn)

end

/-! ### Frames -/

/-- A part that a frame allows to change may be taken out of it where it did not change. -/
theorem OnlyChanges.narrow {regs : List Reg} {parts parts' : List Part} {s t : State}
    (h : OnlyChanges regs parts s t) (hp : ∀ p ∈ parts, p ∉ parts' → p.same s t) : OnlyChanges regs parts' s t := by
  obtain ⟨hregs, hparts⟩ := h
  refine ⟨hregs, fun p hp' => ?_⟩
  by_cases hmem : p ∈ parts
  · exact hp p hmem hp'
  · exact hparts p hmem

/-- The frame of the control-flow family. -/
theorem onlyChanges_control (s : State) (pc : Word) (sp : Fin 17) (stack : Vector Word 16) :
    OnlyChanges [] [.pc, .sp, .stack] s { s with pc := pc, sp := sp, stack := stack } := by
  refine ⟨fun r _ => rfl, fun p hp => ?_⟩
  cases p with
  | pc | sp | stack => exact absurd (by decide) hp
  | mem => exact fun _ => rfl
  | _ => exact rfl

theorem onlyChanges_setPc (s : State) (target : Word) : OnlyChanges [] [.pc] s (s.setPc target) :=
  (onlyChanges_control s target s.sp s.stack).narrow (by simp [Part.same])

/-! ### Jumps (R90, R96) -/

@[simp] theorem zextAddr_toNat (nnn : Addr) : (zextAddr nnn).toNat = nnn.toNat :=
  BitVec.toNat_setWidth_of_le (by decide)

@[simp] theorem zextByte_toNat (b : Byte) : (zextByte b).toNat = b.toNat :=
  BitVec.toNat_setWidth_of_le (by decide)

/-- JP V0's sum never wraps, so it needs no mask (R96). -/
theorem zextByte_add_zextAddr_toNat (b : Byte) (nnn : Addr) :
    (zextByte b + zextAddr nnn).toNat = b.toNat + nnn.toNat := by
  have hb := b.isLt
  have hn := nnn.isLt
  rw [BitVec.toNat_add, zextByte_toNat, zextAddr_toNat]
  omega

/-! ### The call stack (R26, R89, R91) -/

/-- RET after CALL, from whatever pc it is fetched at, leaves the state of the CALL but for the slot the CALL wrote. -/
theorem execRet_after_call (s : State) (h : s.sp.val < 16) (p : Word) :
    execRet { s with pc := p, stack := s.stack.set s.sp.val s.pc h, sp := ⟨s.sp.val + 1, by omega⟩ } =
      .next { s with stack := s.stack.set s.sp.val s.pc h } := by
  rw [execRet_of_pos _ (Nat.succ_pos _)]
  simp

/-- Settles O23: what RET leaves after CALL is the CALL's own state with one slot written. -/
theorem callThenRetReturns : Obligations.CallThenRetReturns := by
  intro nnn s h
  refine ⟨_, execCall_of_lt nnn s h, fun p => ⟨_, execRet_after_call s h p, rfl, rfl, ?_, ?_⟩⟩
  · exact fun k hk => Vector.getElem_set_ne h k.isLt hk.symm
  · exact (onlyChanges_control s s.pc s.sp _).narrow (by simp [Part.same])

/-- Settles O20. -/
theorem jumpSetsPc : Obligations.JumpSetsPc := by
  refine ⟨encodes_of_class (c := 0x1) rfl fun w hc => by simp [decode, hc], fun nnn s => ?_⟩
  exact ⟨s.setPc (zextAddr nnn), rfl, zextAddr_toNat nnn, onlyChanges_setPc s _⟩

/-- Settles O21: a push and a jump, or the overflow. -/
theorem callPushesReturnAddress : Obligations.CallPushesReturnAddress := by
  refine ⟨encodes_of_class (c := 0x2) rfl fun w hc => by simp [decode, hc], fun nnn s => ⟨fun h => ?_, ?_⟩⟩
  · refine ⟨_, execCall_of_lt nnn s h, zextAddr_toNat nnn, rfl, Vector.getElem_set_self h, ?_, ?_⟩
    · exact fun k hk => Vector.getElem_set_ne h k.isLt hk.symm
    · exact onlyChanges_control s _ _ _
  · exact execCall_of_full nnn s

/-- Settles O22: a pop and a jump, or the underflow. -/
theorem retPopsReturnAddress : Obligations.RetPopsReturnAddress := by
  refine ⟨encodes_of_nibble (c := 0x0) (n := 0xE) rfl rfl fun w hc hn => by simp [decode, decodeClass0, hc, hn],
    fun s => ⟨fun k hk => ?_, execRet_of_empty s⟩⟩
  have hpred : s.sp.val - 1 = k.val := by omega
  refine ⟨_, execRet_of_pos s (by omega), ?_, hpred, ?_⟩
  · simp [hpred]
  · exact (onlyChanges_control s _ _ s.stack).narrow (by simp [Part.same])

/-! ### Skips (R16, R92 to R95) -/

/-- A skip is a jump to the advanced pc, or to 2 past it. -/
theorem State.skipIf_eq_setPc (s : State) (c : Bool) : s.skipIf c = s.setPc (if c then s.pc + 2 else s.pc) := by
  cases c with
  | true => rfl
  | false => rfl

theorem onlyChanges_skipIf (s : State) (c : Bool) : OnlyChanges [] [.pc] s (s.skipIf c) := by
  rw [State.skipIf_eq_setPc]
  exact onlyChanges_setPc s _

theorem State.skipIf_beq_pc (s : State) (a b : Byte) :
    (s.skipIf (a == b)).pc = if a = b then s.pc + 2 else s.pc := by
  simp only [State.skipIf_pc, beq_iff_eq]

theorem State.skipIf_bne_pc (s : State) (a b : Byte) :
    (s.skipIf (a != b)).pc = if a = b then s.pc else s.pc + 2 := by
  simp only [State.skipIf_pc, bne_iff_ne, ne_eq, ite_not]

/-- Settles O24. -/
theorem skipOnByte : Obligations.SkipOnByte := by
  refine ⟨encodes_of_class (c := 0x3) rfl fun w hc => by simp [decode, hc],
    encodes_of_class (c := 0x4) rfl fun w hc => by simp [decode, hc], fun x nn s => ⟨?_, ?_⟩⟩
  · exact ⟨_, rfl, s.skipIf_beq_pc _ _, onlyChanges_skipIf s _⟩
  · exact ⟨_, rfl, s.skipIf_bne_pc _ _, onlyChanges_skipIf s _⟩

/-- Settles O25. -/
theorem skipOnRegisters : Obligations.SkipOnRegisters := by
  refine ⟨encodes_of_class (c := 0x5) rfl fun w hc => by simp [decode, hc],
    encodes_of_class (c := 0x9) rfl fun w hc => by simp [decode, hc], fun x y s => ⟨?_, ?_⟩⟩
  · exact ⟨_, rfl, s.skipIf_beq_pc _ _, onlyChanges_skipIf s _⟩
  · exact ⟨_, rfl, s.skipIf_bne_pc _ _, onlyChanges_skipIf s _⟩

/-- Settles O26: the sum of a byte and a 12-bit address fits the pc. -/
theorem jumpAddsV0 : Obligations.JumpAddsV0 := by
  refine ⟨encodes_of_class (c := 0xB) rfl fun w hc => by simp [decode, hc], fun nnn s => ?_⟩
  exact ⟨s.setPc (zextByte (s.getV 0) + zextAddr nnn), rfl, zextByte_add_zextAddr_toNat _ nnn, onlyChanges_setPc s _⟩

end Sys2Proof.Machine
end

section
/-! Register loads, the ALU and RND (42_alu.md).

Every operation of the family writes one register, or one register and then VF; each of the two writes has one frame.
What is written is said once per function of the ALU, in numbers. -/

namespace Sys2Proof.Machine

open Laws

/-! ### What is written and what is left (R20, R111) -/

/-- The registers are none of the parts. -/
theorem Part.same_of_registers (s : State) (V : Vector Byte 16) (p : Part) : p.same s { s with V := V } := by
  cases p with
  | mem => exact fun _ => rfl
  | _ => exact rfl

section
variable (s : State) (x : Reg) (v : Byte) (f : Bool)

theorem onlyChanges_setV : OnlyChanges [x] [] s (s.setV x v) :=
  ⟨fun _ hr => State.getV_setV_of_ne s v (List.ne_of_not_mem_cons hr), fun p _ => p.same_of_registers s _⟩

theorem onlyChanges_setResultFlag : OnlyChanges [x, VF] [] s (s.setResultFlag x v f) := by
  refine ⟨fun r hr => ?_, fun p _ => p.same_of_registers s _⟩
  obtain ⟨hx, hvf⟩ : r ≠ x ∧ r ≠ VF := by simpa using hr
  rw [State.setResultFlag_getV s x r v f hvf, if_neg hx]

/-- A result survives its flag unless it went to VF (R111). -/
theorem State.setResultFlag_getV_self (h : x ≠ VF) : (s.setResultFlag x v f).getV x = v := by
  rw [State.setResultFlag_getV s x x v f h, if_pos rfl]

end

/-! ### The ALU in numbers (R99, R104 to R108) -/

section
variable (a b : Byte)

theorem addResult_toNat : (addResult a b).toNat = (a.toNat + b.toNat) % 256 := BitVec.toNat_ofNat _ 8

/-- Adding 256 keeps the difference a natural number and its residue the same. -/
theorem subResult_toNat : ((subResult a b).toNat : Int) = (a.toNat - b.toNat : Int) % 256 := by
  have hb := b.isLt
  rw [subResult, BitVec.toNat_ofNat]
  omega

theorem shrResult_toNat : (shrResult a).toNat = a.toNat / 2 := BitVec.toNat_ushiftRight a 1

theorem shlResult_toNat : (shlResult a).toNat = 2 * a.toNat % 256 := by
  rw [shlResult, BitVec.toNat_shiftLeft, Nat.shiftLeft_eq, Nat.mul_comm]

theorem flagByte_toNat (f : Bool) : (flagByte f).toNat = f.toNat := by
  cases f with
  | false => rfl
  | true => rfl

theorem flagByte_decide (p : Prop) [Decidable p] : flagByte (decide p) = if p then 1 else 0 :=
  if_congr decide_eq_true_iff rfl rfl

/-- SHR's flag is the bit that the shift drops (R106). -/
theorem flagByte_shrFlag_toNat : (flagByte (shrFlag a)).toNat = a.toNat % 2 := by
  rw [flagByte_toNat, shrFlag, BitVec.getLsbD, Nat.toNat_testBit, pow_zero, Nat.div_one]

/-- SHL's flag is the bit that the shift carries out (R108). -/
theorem flagByte_shlFlag_toNat : (flagByte (shlFlag a)).toNat = a.toNat / 128 := by
  have ha := a.isLt
  rw [flagByte_toNat, shlFlag, BitVec.getLsbD, Nat.toNat_testBit]
  omega

end

/-! ### The rows of class 8 (R69) -/

theorem decode_of_class8 {w : Word} (h : fieldC w = 0x8) : decode w = decodeClass8 w := by simp [decode, h]

theorem encodes_of_class8 {value : Word} {n : Nibble} {i : Word → Instr} (hc : fieldC value = 0x8)
    (hn : fieldN value = n) (h : ∀ w, fieldN w = n → decodeClass8 w = i w) : Encodes 0xF00F value i :=
  encodes_of_nibble hc hn fun w hwc hwn => (decode_of_class8 hwc).trans (h w hwn)

/-! ### Operations without a flag (R98 to R103, R109) -/

/-- Settles O27. -/
theorem loadByte : Obligations.LoadByte := by
  refine ⟨encodes_of_class (c := 0x6) rfl fun w hc => by simp [decode, hc], fun x nn s => ?_⟩
  exact ⟨s.setV x nn, rfl, s.getV_setV_self x nn, onlyChanges_setV s x nn⟩

/-- Settles O28. -/
theorem addByteWithoutFlag : Obligations.AddByteWithoutFlag := by
  refine ⟨encodes_of_class (c := 0x7) rfl fun w hc => by simp [decode, hc], fun x nn s => ?_⟩
  refine ⟨s.setV x (addResult (s.getV x) nn), rfl, ?_, onlyChanges_setV s x _⟩
  rw [State.getV_setV_self, addResult_toNat]

/-- Settles O29. -/
theorem moveRegister : Obligations.MoveRegister := by
  refine ⟨encodes_of_class8 (n := 0x0) rfl rfl fun w hn => by simp [decodeClass8, hn], fun x y s => ?_⟩
  exact ⟨s.setV x (s.getV y), rfl, s.getV_setV_self x _, onlyChanges_setV s x _⟩

/-- Settles O30: the operations on bytes are the ones on their bits. -/
theorem logicBitByBit : Obligations.LogicBitByBit := by
  refine ⟨encodes_of_class8 (n := 0x1) rfl rfl fun w hn => by simp [decodeClass8, hn],
    encodes_of_class8 (n := 0x2) rfl rfl fun w hn => by simp [decodeClass8, hn],
    encodes_of_class8 (n := 0x3) rfl rfl fun w hn => by simp [decodeClass8, hn], fun x y s => ⟨?_, ?_, ?_⟩⟩
  · refine ⟨_, rfl, fun k _ => ?_, onlyChanges_setV s x _⟩
    rw [State.getV_setV_self, BitVec.getLsbD_or]
  · refine ⟨_, rfl, fun k _ => ?_, onlyChanges_setV s x _⟩
    rw [State.getV_setV_self, BitVec.getLsbD_and]
  · refine ⟨_, rfl, fun k _ => ?_, onlyChanges_setV s x _⟩
    rw [State.getV_setV_self, BitVec.getLsbD_xor]

/-- Settles O36: whatever the byte is, it is masked before it is written. -/
theorem randomAndMask : Obligations.RandomAndMask := by
  refine ⟨encodes_of_class (c := 0xC) rfl fun w hc => by simp [decode, hc], fun x nn s => ?_⟩
  refine ⟨s.setV x (s.randomByte &&& nn), rfl, fun b hb => ?_, fun hb => ?_, fun k hk => ?_, onlyChanges_setV s x _⟩
  · rw [State.getV_setV_self, State.randomByte_of_named hb]
  · rw [State.getV_setV_self, State.randomByte_of_unnamed hb]
  · rw [State.getV_setV_self, BitVec.getLsbD_and, hk, Bool.and_false]

/-! ### Operations with a flag (R104 to R108, R111) -/

/-- Settles O31. -/
theorem addRegistersWithCarry : Obligations.AddRegistersWithCarry := by
  refine ⟨encodes_of_class8 (n := 0x4) rfl rfl fun w hn => by simp [decodeClass8, hn], fun x y s => ?_⟩
  refine ⟨_, rfl, fun hx => ?_, ?_, onlyChanges_setResultFlag s x _ _⟩
  · rw [State.setResultFlag_getV_self s x _ _ hx, addResult_toNat]
  · rw [State.setResultFlag_getV_VF, addCarry, flagByte_decide]

/-- SUB and SUBN in one: `a` is the minuend and `b` the subtrahend (R105, R107). -/
theorem exec_subtraction {i : Instr} {s : State} {x : Reg} {a b : Byte}
    (he : exec i s = .next (s.setResultFlag x (subResult a b) (subNoBorrow a b))) :
    ∃ t, exec i s = .next t ∧ (x ≠ VF → ((t.getV x).toNat : Int) = (a.toNat - b.toNat : Int) % 256) ∧
      t.getV VF = (if a.toNat > b.toNat then 1 else 0) ∧ OnlyChanges [x, VF] [] s t := by
  refine ⟨_, he, fun hx => ?_, ?_, onlyChanges_setResultFlag s x _ _⟩
  · rw [State.setResultFlag_getV_self s x _ _ hx, subResult_toNat]
  · rw [State.setResultFlag_getV_VF, subNoBorrow, flagByte_decide]

/-- Settles O32. -/
theorem subRegistersStrictNoBorrow : Obligations.SubRegistersStrictNoBorrow :=
  ⟨encodes_of_class8 (n := 0x5) rfl rfl fun w hn => by simp [decodeClass8, hn], fun _ _ _ => exec_subtraction rfl⟩

/-- Settles O34. -/
theorem subnRegistersStrictNoBorrow : Obligations.SubnRegistersStrictNoBorrow :=
  ⟨encodes_of_class8 (n := 0x7) rfl rfl fun w hn => by simp [decodeClass8, hn], fun _ _ _ => exec_subtraction rfl⟩

/-- Settles O33. -/
theorem shiftRightOne : Obligations.ShiftRightOne := by
  refine ⟨encodes_of_class8 (n := 0x6) rfl rfl fun w hn => by simp [decodeClass8, hn], fun x y s => ?_⟩
  refine ⟨_, rfl, fun hx => ?_, ?_, onlyChanges_setResultFlag s x _ _⟩
  · rw [State.setResultFlag_getV_self s x _ _ hx, shrResult_toNat]
  · rw [State.setResultFlag_getV_VF, flagByte_shrFlag_toNat]

/-- Settles O35. -/
theorem shiftLeftOne : Obligations.ShiftLeftOne := by
  refine ⟨encodes_of_class8 (n := 0xE) rfl rfl fun w hn => by simp [decodeClass8, hn], fun x y s => ?_⟩
  refine ⟨_, rfl, fun hx => ?_, ?_, onlyChanges_setResultFlag s x _ _⟩
  · rw [State.setResultFlag_getV_self s x _ _ hx, shlResult_toNat]
  · rw [State.setResultFlag_getV_VF, flagByte_shlFlag_toNat]

end Sys2Proof.Machine
end

section
/-! The index register and the memory-block operations (43_index_and_memory.md).

Three operations write the index register and two store a block through it; each kind of write has one frame. A block
of registers loaded is said once, register by register, for the load and for the round trip. -/

namespace Sys2Proof.Machine

open Laws

/-! ### The rows of class F (R71) -/

theorem decode_of_classF {w : Word} (h : fieldC w = 0xF) : decode w = decodeClassF w := by simp [decode, h]

/-- A row of class F, keyed by the low byte. -/
theorem encodes_of_classF {value : Word} {nn : Byte} {i : Word → Instr} (hc : fieldC value = 0xF)
    (hnn : fieldNN value = nn) (h : ∀ w, fieldNN w = nn → decodeClassF w = i w) : Encodes 0xF0FF value i := by
  intro w hw
  obtain ⟨hwc, hwnn⟩ := fields_of_mask_byte hw
  exact (decode_of_classF (hwc.trans hc)).trans (h w (hwnn.trans hnn))

/-! ### Frames (R112 to R118) -/

theorem onlyChanges_setI (s : State) (v : Word) : OnlyChanges [] [.I] s (s.setI v) := by
  refine ⟨fun r _ => rfl, fun p hp => ?_⟩
  cases p with
  | I => exact absurd (by decide) hp
  | mem => exact fun _ => rfl
  | _ => exact rfl

theorem onlyChanges_mem (s : State) (m : List Host.Cell) : OnlyChanges [] [.mem] s { s with mem := m } := by
  refine ⟨fun r _ => rfl, fun p hp => ?_⟩
  cases p with
  | mem => exact absurd (by decide) hp
  | _ => exact rfl

/-! ### What is stored and what is loaded, in numbers (R113 to R117) -/

/-- The glyph of the largest register value still has a 16-bit address (R114). -/
theorem glyphAddress_toNat (b : Byte) : (glyphAddress b).toNat = 0x50 + 5 * b.toNat := by
  have hb := b.isLt
  have hfits : 0x50 + 5 * b.toNat < 65536 := by omega
  exact Nat.mod_eq_of_lt hfits

theorem add_zextByte_toNat (a : Word) (b : Byte) : (a + zextByte b).toNat = (a.toNat + b.toNat) % 65536 := by
  rw [BitVec.toNat_add, zextByte_toNat]

@[simp] theorem bcdDigits_length (b : Byte) : (bcdDigits b).length = 3 := rfl

/-- Every digit of a byte fits a byte (R115). -/
theorem bcdDigits_map_toNat (b : Byte) :
    (bcdDigits b).map BitVec.toNat = [b.toNat / 100, b.toNat / 10 % 10, b.toNat % 10] := by
  have hb := b.isLt
  simp only [bcdDigits, List.map_cons, List.map_nil, BitVec.toNat_ofNat]
  rw [Nat.mod_eq_of_lt (a := b.toNat / 100) (by omega), Nat.mod_eq_of_lt (a := b.toNat / 10 % 10) (by omega),
    Nat.mod_eq_of_lt (a := b.toNat % 10) (by omega)]

/-- After the digits of V[x] are stored at I, the byte at I + k is digit `k`, hundreds first. -/
theorem State.read_writeList_bcdDigits {s : State} {x : Reg} (hm : Memory.wf s.mem = true)
    (hI : s.I.toNat + 2 ≤ 0xFFF) {k : Nat} (hk : k < 3) :
    (Memory.read (Memory.writeList s.mem s.I.toNat (bcdDigits (s.getV x))) (s.I.toNat + k)).toNat =
      [(s.getV x).toNat / 100, (s.getV x).toNat / 10 % 10, (s.getV x).toNat % 10][k] := by
  have hfits : s.I.toNat + (bcdDigits (s.getV x)).length ≤ 4096 := by simp only [bcdDigits_length]; omega
  rw [Memory.read_writeList hm _ hfits (by simpa using hk)]
  simp only [← bcdDigits_map_toNat, List.getElem_map]

/-- V0 to V[x] written from `f`, inclusive, and the later registers left alone (R117). -/
theorem State.getV_setRegsFrom_range (s : State) (f : Nat → Byte) (x r : Reg) :
    (s.setRegsFrom 0 ((List.range (x.toNat + 1)).map f)).getV r =
      if r.toNat ≤ x.toNat then f r.toNat else s.getV r := by
  have hx := x.isLt
  rw [State.setRegsFrom_getV s _ (by simp; omega)]
  by_cases h : r.toNat ≤ x.toNat
  · rw [if_pos h, dif_pos (by simp; omega)]; simp
  · rw [if_neg h, dif_neg (by simp; omega)]

/-! ### The index register -/

/-- Settles O39. -/
theorem loadIndex : Obligations.LoadIndex := by
  refine ⟨encodes_of_class (c := 0xA) rfl fun w hc => by simp [decode, hc], fun nnn s => ?_⟩
  exact ⟨s.setI (zextAddr nnn), rfl, zextAddr_toNat nnn, onlyChanges_setI s _⟩

/-- Settles O40. -/
theorem addToIndex : Obligations.AddToIndex := by
  refine ⟨encodes_of_classF (nn := 0x1E) rfl rfl fun w hnn => by simp [decodeClassF, hnn], fun x s => ?_⟩
  exact ⟨s.setI (s.I + zextByte (s.getV x)), rfl, add_zextByte_toNat s.I _, onlyChanges_setI s _⟩

/-- Settles O41. -/
theorem loadGlyphAddress : Obligations.LoadGlyphAddress := by
  refine ⟨encodes_of_classF (nn := 0x29) rfl rfl fun w hnn => by simp [decodeClassF, hnn], fun x s => ?_⟩
  exact ⟨s.setI (glyphAddress (s.getV x)), rfl, glyphAddress_toNat _, onlyChanges_setI s _⟩

/-! ### Blocks stored through the index register -/

/-- Settles O42: three digits stored, or the fault. -/
theorem storeBcdDigits : Obligations.StoreBcdDigits := by
  refine ⟨encodes_of_classF (nn := 0x33) rfl rfl fun w hnn => by simp [decodeClassF, hnn], fun x s hm =>
    ⟨fun hI => ?_, fun hI => execLdB_of_gt x s (by omega)⟩⟩
  have hdigit {k : Nat} (hk : k < 3) := State.read_writeList_bcdDigits (x := x) hm hI hk
  refine ⟨_, execLdB_of_le x s (by omega), hdigit (k := 0) (by decide), hdigit (k := 1) (by decide),
    hdigit (k := 2) (by decide), fun a ha => ?_, onlyChanges_mem s _⟩
  exact Memory.read_writeList_of_not_mem s.mem _ (by rw [bcdDigits_length]; omega)

/-- Settles O43: the registers stored, or the fault. -/
theorem storeRegisterBlock : Obligations.StoreRegisterBlock := by
  refine ⟨encodes_of_classF (nn := 0x55) rfl rfl fun w hnn => by simp [decodeClassF, hnn], fun x s hm =>
    ⟨fun hI => ?_, fun hI => execStRegs_of_gt x s (by omega)⟩⟩
  refine ⟨_, execStRegs_of_le x s (by omega), fun r => State.read_writeList_regsUpTo hm hI, fun a ha => ?_,
    onlyChanges_mem s _⟩
  exact Memory.read_writeList_of_not_mem s.mem _ (by rw [State.regsUpTo_length]; omega)

/-! ### Blocks loaded through the index register -/

/-- Settles O44: the registers loaded, or the fault. -/
theorem loadRegisterBlock : Obligations.LoadRegisterBlock := by
  refine ⟨encodes_of_classF (nn := 0x65) rfl rfl fun w hnn => by simp [decodeClassF, hnn], fun x s =>
    ⟨fun hI => ?_, fun hI => execLdRegs_of_gt x s (by omega)⟩⟩
  refine ⟨_, execLdRegs_of_le x s (by omega), fun r hr => ?_, fun r hr => ?_, fun p => ?_⟩
  · rw [State.getV_setRegsFrom_range, if_pos hr]
  · rw [State.getV_setRegsFrom_range, if_neg (by omega)]
  · rw [State.setRegsFrom_eq]
    exact p.same_of_registers s _

/-- Settles O45: register `r` is loaded from the address that the store wrote `V[r]` to. -/
theorem storeThenLoadRoundTrips : Obligations.StoreThenLoadRoundTrips := by
  intro x s hm hI
  refine ⟨_, execStRegs_of_le x s (by omega), fun u hmem hu => ?_⟩
  refine ⟨_, execLdRegs_of_le x u (by rw [hu]; omega), fun r hr => ?_⟩
  calc (u.setRegsFrom 0 _).getV r
      = u.readByte (u.I.toNat + r.toNat) := by rw [State.getV_setRegsFrom_range, if_pos hr]
    _ = s.getV r := by rw [State.readByte, hmem, hu, State.read_writeList_regsUpTo hm hI hr]

end Sys2Proof.Machine
end

section
/-! The display (44_display.md): CLS, a sprite cell's address, and DRW.

The rasterizer's two laws are carried over from lists of bytes to a sprite in memory, `SpriteCovers`. DRW then has one
answer in range, `State.drawn`, and its pixels, its flag and its frame are each said once. -/

namespace Sys2Proof.Machine

/-! ### Frames (R120, R121) -/

section
variable (s : State) (fb : Framebuffer)

/-- The screen and the registers are none of the other parts. -/
theorem Part.same_of_screen_registers (V : Vector Byte 16) {p : Part} (hp : p ∉ [Part.fb]) :
    p.same s { s with fb := fb, V := V } := by
  cases p with
  | fb => exact absurd (by decide) hp
  | mem => exact fun _ => rfl
  | _ => exact rfl

theorem onlyChanges_setFb : OnlyChanges [] [.fb] s (s.setFb fb) :=
  ⟨fun _ _ => rfl, fun _ => Part.same_of_screen_registers s fb s.V⟩

theorem onlyChanges_setFb_setV (x : Reg) (v : Byte) : OnlyChanges [x] [.fb] s ((s.setFb fb).setV x v) :=
  ⟨fun _ hr => State.getV_setV_of_ne (s.setFb fb) v (List.ne_of_not_mem_cons hr),
    fun _ => Part.same_of_screen_registers s fb _⟩

end

/-! ### The screen cleared, and the address of a sprite's cell (R120, R122) -/

/-- Settles O47. -/
theorem clearScreen : Obligations.ClearScreen := by
  refine ⟨encodes_of_nibble (c := 0x0) (n := 0x0) rfl rfl fun w hc hn => by simp [decode, decodeClass0, hc, hn],
    fun s => ?_⟩
  exact ⟨s.setFb Framebuffer.allOff, rfl, Framebuffer.cell_allOff, onlyChanges_setFb s _⟩

/-- Whole screens taken off the linear address leave the cell of row `y` and column `x` (R122). -/
theorem pixelAddr_val_of_linear {x0 y0 r c x y : Nat} (screens : Nat) (hx : x < 64) (hy : y < 32)
    (h : (y0 + r) * 64 + (x0 + c) = y * 64 + x + 2048 * screens) : (pixelAddr x0 y0 r c).val = y * 64 + x := by
  rw [pixelAddr_val, h, Nat.add_mul_mod_self_left, Nat.mod_eq_of_lt (by omega)]

/-- Settles O48: each clause names the row, the column and whether a whole screen is taken off. -/
theorem spriteAddressWrapsLinearly : Obligations.SpriteAddressWrapsLinearly := by
  intro x0 y0 r c hx hy hr hc
  refine ⟨rfl, (pixelAddr x0 y0 r c).isLt, fun h h' => ?_, fun h h' => ?_, fun h h' => ?_, fun h h' => ?_,
    fun h h' => ?_⟩
  · exact pixelAddr_val_of_linear 0 h h' rfl
  · exact pixelAddr_val_of_linear 0 (by omega) (by omega) (by omega)
  · exact pixelAddr_val_of_linear 1 h (by omega) (by omega)
  · rw [pixelAddr_val_of_linear (x := x0 + c - 64) (y := 0) 1 (by omega) (by omega) (by omega)]
    omega
  · exact pixelAddr_val_of_linear 1 (by omega) (by omega) (by omega)

/-! ### A sprite in memory (R121 to R124) -/

/-- The `n` bytes of a sprite at address `base` of memory. -/
def State.spriteBytes (s : State) (base n : Nat) : List Byte := (List.range n).map fun k => s.readByte (base + k)

@[simp] theorem State.spriteBytes_length (s : State) (base n : Nat) : (s.spriteBytes base n).length = n := by
  simp [State.spriteBytes]

@[simp] theorem State.spriteBytes_getElem (s : State) (base n : Nat) {k : Nat}
    (hk : k < (s.spriteBytes base n).length) : (s.spriteBytes base n)[k] = s.readByte (base + k) := by
  simp [State.spriteBytes]

/-- The cells that the rasterizer covers are the covered cells of the sprite in memory. -/
theorem rowsCover_spriteBytes (s : State) (base x0 y0 n : Nat) (a : Fin 2048) :
    RowsCover x0 y0 0 (s.spriteBytes base n) a ↔ SpriteCovers s base x0 y0 n a := by
  constructor
  · rintro ⟨r, hr, c, -, hc, hbit, hcell⟩
    rw [State.spriteBytes_getElem] at hbit
    rw [Nat.zero_add] at hc hcell
    exact ⟨r, c, by simpa using hr, hc, hbit, congrArg Fin.val hcell⟩
  · rintro ⟨r, c, hr, hc, hbit, hcell⟩
    refine ⟨r, by simpa using hr, c, c.zero_le, by omega, ?_, Fin.ext ?_⟩
    · rw [State.spriteBytes_getElem]
      exact hbit
    · rw [pixelAddr_val, Nat.zero_add]
      exact hcell

section
variable (s : State) (base x0 y0 n : Nat) (fb : Framebuffer)

open scoped Classical in
/-- Exactly the covered cells are toggled (R121, R124). -/
theorem drawSprite_cell (hn : n ≤ 16) (a : Fin 2048) :
    (drawSprite fb x0 y0 (s.spriteBytes base n)).fb.cell a =
      if SpriteCovers s base x0 y0 n a then !fb.cell a else fb.cell a := by
  rw [drawSprite, (Raster.drawRows_spec _ x0 y0 0 _ (by simpa using hn)).1 a]
  simp only [rowsCover_spriteBytes]

/-- A sprite collides exactly when a covered cell was on (R121). -/
theorem drawSprite_collided (hn : n ≤ 16) :
    (drawSprite fb x0 y0 (s.spriteBytes base n)).collided = true ↔
      ∃ a, SpriteCovers s base x0 y0 n a ∧ fb.cell a = true := by
  rw [drawSprite, (Raster.drawRows_spec _ x0 y0 0 _ (by simpa using hn)).2]
  simp only [rowsCover_spriteBytes, Bool.false_eq_true, false_or]

end

/-! ### DRW in range -/

theorem flagByte_eq_one_iff (f : Bool) : flagByte f = 1 ↔ f = true := by
  cases f <;> decide

section
variable (x y : Reg) (n : Nibble) (s : State)

/-- What DRW's rasterizer leaves: the sprite at I drawn from the origin that V[x] and V[y] name (R121). -/
def State.drwRaster : Raster :=
  drawSprite s.fb ((s.getV x).toNat % 64) ((s.getV y).toNat % 32) (s.spriteBytes s.I.toNat n.toNat)

/-- The state that DRW answers when its sprite is in range: the raster shown, and VF last (R121). -/
def State.drawn : State := (s.setFb (s.drwRaster x y n).fb).setV VF (flagByte (s.drwRaster x y n).collided)

/-- The cells that DRW covers, as the statements about it write them. -/
def State.DrwCovers (a : Fin 2048) : Prop :=
  SpriteCovers s s.I.toNat ((s.getV x).toNat % 64) ((s.getV y).toNat % 32) n.toNat a

theorem exec_drw_of_inRange (h : n.toNat = 0 ∨ s.I.toNat + n.toNat - 1 ≤ 0xFFF) :
    exec (.drw x y n) s = .next (s.drawn x y n) :=
  execDrw_of_le x y n s (by omega)

theorem onlyChanges_drawn : OnlyChanges [VF] [.fb] s (s.drawn x y n) := onlyChanges_setFb_setV s _ VF _

open scoped Classical in
theorem State.drawn_cell (a : Fin 2048) :
    (s.drawn x y n).fb.cell a = if s.DrwCovers x y n a then !s.fb.cell a else s.fb.cell a :=
  drawSprite_cell s _ _ _ _ s.fb n.isLt.le a

theorem State.drawn_getV_VF : (s.drawn x y n).getV VF = flagByte (s.drwRaster x y n).collided :=
  State.getV_setV_self _ VF _

theorem State.drawn_getV_VF_eq_one_iff :
    (s.drawn x y n).getV VF = 1 ↔ ∃ a, s.DrwCovers x y n a ∧ s.fb.cell a = true := by
  rw [State.drawn_getV_VF, flagByte_eq_one_iff]
  exact drawSprite_collided s _ _ _ _ s.fb n.isLt.le

end

/-- Settles O49: the sprite drawn, or the fault. -/
theorem drawTogglesCoveredCells : Obligations.DrawTogglesCoveredCells := by
  refine ⟨encodes_of_class (c := 0xD) rfl fun w hc => by simp [decode, hc], fun x y n s =>
    ⟨fun h => ?_, fun hn h => execDrw_of_gt x y n s hn (by omega)⟩⟩
  refine ⟨s.drawn x y n, exec_drw_of_inRange x y n s h, fun a ha => ?_, fun a ha => ?_, ?_,
    s.drawn_getV_VF_eq_one_iff x y n, onlyChanges_drawn x y n s⟩
  · exact (s.drawn_cell x y n a).trans (if_pos ha)
  · exact (s.drawn_cell x y n a).trans (if_neg ha)
  · rw [State.drawn_getV_VF]
    exact flagByte_eq_zero_or_one _

/-! ### DRW twice (R125) -/

section
variable {s u : State} {x y : Reg} {n : Nibble} (hI : u.I = s.I) (hmem : ∀ a, u.readByte a = s.readByte a)
  (hx : u.getV x = s.getV x) (hy : u.getV y = s.getV y)
include hI hmem hx hy

/-- The covered cells are settled by the sprite and the coordinates, not by the screen. -/
theorem State.drwCovers_congr (a : Fin 2048) : u.DrwCovers x y n a ↔ s.DrwCovers x y n a := by
  simp only [State.DrwCovers, SpriteCovers, hI, hmem, hx, hy]

variable (hfb : u.fb = (s.drawn x y n).fb)
include hfb

/-- Each covered cell is toggled twice, so the screen is as before the first draw. -/
theorem State.drawn_drawn_fb : (u.drawn x y n).fb = s.fb := by
  refine Framebuffer.ext_cell fun a => ?_
  have hsame := State.drwCovers_congr (n := n) hI hmem hx hy a
  rw [State.drawn_cell, hfb, State.drawn_cell]
  by_cases ha : s.DrwCovers x y n a
  · rw [if_pos (hsame.2 ha), if_pos ha, Bool.not_not]
  · rw [if_neg (hsame.not.2 ha), if_neg ha]

/-- The second draw collides where the first turned a covered cell on. -/
theorem State.drawn_drawn_getV_VF_eq_one_iff :
    (u.drawn x y n).getV VF = 1 ↔ ∃ a, s.DrwCovers x y n a ∧ s.fb.cell a = false := by
  rw [State.drawn_getV_VF_eq_one_iff]
  refine exists_congr fun a => ?_
  rw [State.drwCovers_congr hI hmem hx hy]
  refine and_congr_right fun ha => ?_
  rw [hfb, State.drawn_cell, if_pos ha, Bool.not_eq_true']

end

/-- Settles O50: the two draws cover the same cells. -/
theorem drawTwiceRestoresScreen : Obligations.DrawTwiceRestoresScreen := by
  intro x y n s h
  refine ⟨s.drawn x y n, exec_drw_of_inRange x y n s h, fun u hfb hI hmem hx hy => ?_⟩
  refine ⟨u.drawn x y n, exec_drw_of_inRange x y n u (by rwa [hI]), ?_, ?_⟩
  · exact State.drawn_drawn_fb hI hmem hx hy hfb
  · exact State.drawn_drawn_getV_VF_eq_one_iff hI hmem hx hy hfb

end Sys2Proof.Machine
end

section
/-! Timers and keypad input (45_timers_and_input.md).

A step that does not fault ends by the tick over what Execute left, so its timers are the countdown of those that
Execute left. The key wait turns on the scan of the keypad, `firstPressed`, whose two answers are said once. -/

namespace Sys2Proof.Machine

/-! ### A step that does not fault (R84) -/

section
variable {s t : State} {i : Instr}

/-- Where Execute raises no fault, the step is the tick over what it left. -/
theorem step_eq_endStep_of_fetches (h : Fetches s i) (he : exec i s.beginExecute = .next t) (hf : t.fault = .none) :
    step s = .next t.endStep := by
  rw [step_next_of_fetches h he, State.conclude_of_noFault s hf]

/-- The converse: a step that leaves no fault is the tick over what Execute left. -/
theorem exists_exec_of_step (h : Fetches s i) (hs : step s = .next t) (hf : t.fault = .none) :
    ∃ u, exec i s.beginExecute = .next u ∧ t = u.endStep := by
  obtain ⟨u, hu⟩ := exec_answers_next s.beginExecute i
  rw [step_next_of_fetches h hu] at hs
  cases hs
  refine ⟨u, hu, State.conclude_of_noFault s ?_⟩
  by_contra hfault
  rw [State.conclude_of_fault s hfault] at hf
  exact hfault hf

theorem ExecEffect.DT_eq (h : ExecEffect s i t) (hi : ∀ x, i ≠ .ldDtVx x) : t.DT = s.DT := by
  by_contra hne
  obtain ⟨x, hx⟩ := h.DT_writers hne
  exact hi x hx

theorem ExecEffect.ST_eq (h : ExecEffect s i t) (hi : ∀ x, i ≠ .ldStVx x) : t.ST = s.ST := by
  by_contra hne
  obtain ⟨x, hx⟩ := h.ST_writers hne
  exact hi x hx

end

/-- Settles O18: the tick counts down the timers that Execute left, and Execute leaves each but for its one writer. -/
theorem timersTickOncePerStep : Obligations.TimersTickOncePerStep := by
  intro s t i hi hs hf
  obtain ⟨u, hu, rfl⟩ := exists_exec_of_step hi hs hf
  have heffect := execEffect_of_exec hu
  refine ⟨fun hne => ?_, fun hne => ?_⟩
  · rw [State.endStep_DT, countDown_toNat, heffect.DT_eq hne, State.beginExecute_DT]
  · rw [State.endStep_ST, countDown_toNat, heffect.ST_eq hne, State.beginExecute_ST]

/-! ### Timer access (R127 to R130) -/

/-- The frame of the two operations that set a timer. -/
theorem onlyChanges_timers (s : State) (d e : Byte) : OnlyChanges [] [.DT, .ST] s { s with DT := d, ST := e } := by
  refine ⟨fun r _ => rfl, fun p hp => ?_⟩
  cases p with
  | DT | ST => exact absurd (by decide) hp
  | mem => exact fun _ => rfl
  | _ => exact rfl

theorem onlyChanges_setDT (s : State) (v : Byte) : OnlyChanges [] [.DT] s (s.setDT v) :=
  (onlyChanges_timers s v s.ST).narrow (by simp [Part.same])

theorem onlyChanges_setST (s : State) (v : Byte) : OnlyChanges [] [.ST] s (s.setST v) :=
  (onlyChanges_timers s s.DT v).narrow (by simp [Part.same])

theorem State.soundActive_iff (s : State) : s.soundActive = true ↔ 1 ≤ s.ST.toNat := by
  rw [State.soundActive, bne_iff_ne, ← BitVec.toNat_ne_iff_ne]
  exact Nat.one_le_iff_ne_zero.symm

/-- Settles O51: Execute reads the timer that the step began with, and the tick does not reach the register. -/
theorem readDelayTimer : Obligations.ReadDelayTimer := by
  refine ⟨encodes_of_classF (nn := 0x07) rfl rfl fun w hnn => by simp [decodeClassF, hnn], fun x s => ?_,
    fun x s h => ?_⟩
  · exact ⟨s.setV x s.DT, rfl, s.getV_setV_self x _, onlyChanges_setV s x _⟩
  · refine ⟨_, step_eq_endStep_of_fetches h rfl h.1, ?_, countDown_toNat s.DT⟩
    rw [State.endStep_getV, State.getV_setV_self, State.beginExecute_DT]

/-- Settles O52: the tick counts down the value just set. -/
theorem setDelayTimer : Obligations.SetDelayTimer := by
  refine ⟨encodes_of_classF (nn := 0x15) rfl rfl fun w hnn => by simp [decodeClassF, hnn], fun x s => ?_,
    fun x s h => ?_⟩
  · exact ⟨s.setDT (s.getV x), rfl, rfl, onlyChanges_setDT s _⟩
  · exact ⟨_, step_eq_endStep_of_fetches h rfl h.1, countDown_toNat (s.getV x)⟩

/-- Settles O53: the tick counts down the value just set, so that a value of 1 is never heard. -/
theorem setSoundTimer : Obligations.SetSoundTimer := by
  refine ⟨encodes_of_classF (nn := 0x18) rfl rfl fun w hnn => by simp [decodeClassF, hnn], fun x s => ?_,
    fun x s h => ?_⟩
  · exact ⟨s.setST (s.getV x), rfl, rfl, onlyChanges_setST s _⟩
  · have hST : (countDown (s.getV x)).toNat = (s.getV x).toNat - 1 := countDown_toNat _
    refine ⟨_, step_eq_endStep_of_fetches h rfl h.1, hST, ?_⟩
    rw [State.soundActive_iff, State.endStep_ST, State.setST_ST, State.beginExecute_getV, hST]
    omega

/-! ### Skips on a key (R131 to R133) -/

section
variable (s : State) {v : Byte}

theorem State.keyPressed_of_key {k : Fin 16} (h : v.toNat = k.val) : s.keyPressed v = s.keys[k] := by
  simp [State.keyPressed, h]

/-- A value that names no key is "not pressed" (R131). -/
theorem State.keyPressed_of_ge (h : 16 ≤ v.toNat) : s.keyPressed v = false :=
  dif_neg (Nat.not_lt.2 h)

end

/-- Settles O54: the lookup is the key's flag, or "not pressed" where no key is named. -/
theorem skipOnKey : Obligations.SkipOnKey := by
  refine ⟨encodes_of_nibble (c := 0xE) (n := 0xE) rfl rfl fun w hc hn => by simp [decode, decodeClassE, hc, hn],
    encodes_of_nibble (c := 0xE) (n := 0x1) rfl rfl fun w hc hn => by simp [decode, decodeClassE, hc, hn],
    fun x s => ⟨?_, ?_⟩⟩
  · refine ⟨_, rfl, onlyChanges_skipIf s _, fun k hk => ?_, fun hv => ?_⟩
    · rw [State.skipIf_pc, s.keyPressed_of_key hk]
    · rw [State.skipIf_pc, s.keyPressed_of_ge hv, if_neg Bool.false_ne_true]
  · refine ⟨_, rfl, onlyChanges_skipIf s _, fun k hk => ?_, fun hv => ?_⟩
    · rw [State.skipIf_pc, s.keyPressed_of_key hk]
      simp only [Bool.not_eq_true', ← Bool.not_eq_true, ite_not]
    · rw [State.skipIf_pc, s.keyPressed_of_ge hv, Bool.not_false, if_pos rfl]

/-! ### The key wait (R134, R135) -/

/-- The scan's lookup is the key's flag, or "not pressed" where the number names no key. -/
theorem Keypad.getD_eq_dite (keys : Keypad) (j : Nat) :
    keys.getD j false = if h : j < 16 then keys[j] else false := by
  rw [Vector.getD, Array.getD_eq_getD_getElem?, Vector.getElem?_toArray, Vector.getD_getElem?]

section
variable {keys : Keypad}

theorem Keypad.getD_val (k : Fin 16) : keys.getD k.val false = keys[k] := by
  rw [Keypad.getD_eq_dite, dif_pos k.isLt, Fin.getElem_fin]

theorem Keypad.getD_eq_false (h : ∀ k : Fin 16, keys[k] = false) (j : Nat) : keys.getD j false = false := by
  rw [Keypad.getD_eq_dite]
  by_cases hj : j < 16
  · rw [dif_pos hj]; exact h ⟨j, hj⟩
  · rw [dif_neg hj]

/-- The scan finds nothing where nothing is pressed. -/
theorem firstPressed_eq_none (h : ∀ j, keys.getD j false = false) (k n : Nat) : firstPressed keys k n = none := by
  induction n generalizing k with
  | zero => rfl
  | succ n ih => rw [firstPressed, h k, if_neg Bool.false_ne_true, ih]

/-- The scan finds the pressed key `j` in its range when none below it is pressed. -/
theorem firstPressed_eq_some {j : Nat} (hj : keys.getD j false = true) (hlow : ∀ m < j, keys.getD m false = false)
    {k n : Nat} (hk : k ≤ j) (hn : j < k + n) : firstPressed keys k n = some (BitVec.ofNat 8 j) := by
  induction n generalizing k with
  | zero => omega
  | succ n ih =>
    rw [firstPressed]
    obtain rfl | hlt := Nat.eq_or_lt_of_le hk
    · rw [if_pos hj]
    · rw [hlow k hlt, if_neg Bool.false_ne_true, ih hlt (by omega)]

end

section
variable {s : State} {x : Reg} {k : Fin 16}

theorem State.firstKey_eq_none (h : ∀ k : Fin 16, s.keys[k] = false) : s.firstKey = none :=
  firstPressed_eq_none (Keypad.getD_eq_false h) 0 16

theorem State.firstKey_eq_some (hk : s.keys[k] = true) (hlow : ∀ j : Fin 16, j.val < k.val → s.keys[j] = false) :
    s.firstKey = some (BitVec.ofNat 8 k.val) :=
  firstPressed_eq_some ((Keypad.getD_val k).trans hk)
    (fun m hm => (Keypad.getD_val ⟨m, by omega⟩).trans (hlow ⟨m, by omega⟩ hm)) (Nat.zero_le _) (by omega)

/-- With no key pressed the wait undoes the advance. -/
theorem exec_ldVxK_of_noKey (h : ∀ k : Fin 16, s.keys[k] = false) :
    exec (.ldVxK x) s = .next (s.setPc (s.pc - 2)) := by
  change execLdVxK x s = _
  rw [execLdVxK, State.firstKey_eq_none h]

/-- With key `k` the lowest pressed the wait ends in V[x]. -/
theorem exec_ldVxK_of_lowestKey (hk : s.keys[k] = true) (hlow : ∀ j : Fin 16, j.val < k.val → s.keys[j] = false) :
    exec (.ldVxK x) s = .next (s.setV x (BitVec.ofNat 8 k.val)) := by
  change execLdVxK x s = _
  rw [execLdVxK, State.firstKey_eq_some hk hlow]

/-- Every key's index fits a byte. -/
theorem ofNat_key_toNat (k : Fin 16) : (BitVec.ofNat 8 k.val).toNat = k.val :=
  Nat.mod_eq_of_lt (by omega)

end

/-- Settles O55. -/
theorem keyWaitTakesLowestKey : Obligations.KeyWaitTakesLowestKey := by
  refine ⟨encodes_of_classF (nn := 0x0A) rfl rfl fun w hnn => by simp [decodeClassF, hnn], fun x s =>
    ⟨fun k hk hlow => ?_, fun h => ?_⟩⟩
  · refine ⟨_, exec_ldVxK_of_lowestKey hk hlow, ?_, onlyChanges_setV s x _⟩
    rw [State.getV_setV_self, ofNat_key_toNat]
  · exact ⟨_, exec_ldVxK_of_noKey h, rfl, onlyChanges_setPc s _⟩

/-- The frame of a waiting step: it keeps the pc, so that only the tick and `started` are left of it. -/
theorem onlyChanges_endStep_started (s : State) :
    OnlyChanges [] [.DT, .ST, .started, .rand] s ({ s with started := true } : State).endStep := by
  refine ⟨fun r _ => rfl, fun p hp => ?_⟩
  cases p with
  | DT | ST | started | rand => exact absurd (by decide) hp
  | mem => exact fun _ => rfl
  | _ => exact rfl

/-- The undone advance is the pc that the step began with. -/
theorem State.beginExecute_setPc_sub_two (s : State) :
    s.beginExecute.setPc (s.beginExecute.pc - 2) = { s with started := true } := by
  rw [State.beginExecute_pc, BitVec.add_sub_cancel]
  rfl

/-- Settles O56: what the wait undoes is the step's own advance. -/
theorem keyWaitHoldsPc : Obligations.KeyWaitHoldsPc := by
  refine fun x s h => ⟨fun hnone => ?_, fun k hk hlow => ?_⟩
  · have he : exec (.ldVxK x) s.beginExecute = .next { s with started := true } := by
      rw [exec_ldVxK_of_noKey (s := s.beginExecute) hnone, State.beginExecute_setPc_sub_two]
    exact ⟨_, step_eq_endStep_of_fetches h he h.1, rfl, countDown_toNat s.DT, countDown_toNat s.ST,
      onlyChanges_endStep_started s⟩
  · refine ⟨_, step_eq_endStep_of_fetches h (exec_ldVxK_of_lowestKey hk hlow) h.1, rfl, ?_⟩
    rw [State.endStep_getV, State.getV_setV_self, ofNat_key_toNat]

end Sys2Proof.Machine
end

section
/-! Exceptions (60_exceptions.md): which operation raises which fault, and when.

`raisedFault` tabulates the causes of R138, R139 and R141 over the executing state. Execute leaves exactly the fault that the
table names, and each clause of the obligation is one code read off the table. -/

namespace Sys2Proof.Machine

/-- The fault that an operation raises over the executing state, `.none` where it raises none (R138, R139, R141). -/
def raisedFault (s : State) : Instr → FaultCode
  | .call _ => if s.sp.val = 16 then .stackOverflow else .none
  | .ret => if s.sp.val = 0 then .stackUnderflow else .none
  | .drw _ _ n => if 0 < n.toNat ∧ 0xFFF < s.I.toNat + n.toNat - 1 then .dataOutOfRange else .none
  | .ldB _ => if 0xFFF < s.I.toNat + 2 then .dataOutOfRange else .none
  | .stRegs x | .ldRegs x => if 0xFFF < s.I.toNat + x.toNat then .dataOutOfRange else .none
  | _ => .none

/-! ### Execute leaves the tabulated fault -/

section
variable {s t : State}

/-- The shape of every operation that can raise: the fault alone where its guard holds, and elsewhere a state that
keeps the absence of a fault. -/
theorem fault_eq_of_guarded {p : Prop} [Decidable p] {answer : Answer} {code : FaultCode}
    (hraise : p → answer = .next (s.withFault code)) (hkeep : ¬ p → ∃ u : State, answer = .next u ∧ u.fault = .none)
    (h : answer = .next t) : t.fault = if p then code else .none := by
  by_cases hp : p
  · rw [hraise hp] at h; cases h
    exact (if_pos hp).symm
  · obtain ⟨u, hu, hnone⟩ := hkeep hp
    rw [hu] at h; cases h
    exact hnone.trans (if_neg hp).symm

/-- Both answers of the key wait keep the fault (R134). -/
theorem execLdVxK_fault {x : Reg} (h : execLdVxK x s = .next t) : t.fault = s.fault := by
  rw [execLdVxK] at h
  split at h
  · cases h; rfl
  · cases h; rfl

/-- Each operation that can raise, by its two laws; every other one keeps the fault it finds. -/
theorem exec_fault {i : Instr} (hf : s.fault = .none) (h : exec i s = .next t) : t.fault = raisedFault s i := by
  cases i with
  | call nnn =>
    exact fault_eq_of_guarded (execCall_of_full nnn s) (fun _ => ⟨_, execCall_of_lt nnn s (by omega), hf⟩) h
  | ret =>
    exact fault_eq_of_guarded (execRet_of_empty s) (fun _ => ⟨_, execRet_of_pos s (by omega), hf⟩) h
  | drw x y n =>
    exact fault_eq_of_guarded (fun hp => execDrw_of_gt x y n s hp.1 (by omega))
      (fun _ => ⟨_, execDrw_of_le x y n s (by omega), hf⟩) h
  | ldB x =>
    exact fault_eq_of_guarded (fun _ => execLdB_of_gt x s (by omega))
      (fun _ => ⟨_, execLdB_of_le x s (by omega), hf⟩) h
  | stRegs x =>
    exact fault_eq_of_guarded (fun _ => execStRegs_of_gt x s (by omega))
      (fun _ => ⟨_, execStRegs_of_le x s (by omega), hf⟩) h
  | ldRegs x =>
    exact fault_eq_of_guarded (fun _ => execLdRegs_of_gt x s (by omega))
      (fun _ => ⟨_, execLdRegs_of_le x s (by omega), (s.setRegsFrom_fault 0 _).trans hf⟩) h
  | ldVxK x => exact (execLdVxK_fault h).trans hf
  | _ => cases h; simpa [raisedFault] using hf

/-- An operation either keeps the fault or is nothing but the fault it raises (R85, R136). -/
theorem ExecEffect.fault_eq_or_eq_withFault {i : Instr} (h : ExecEffect s i t) :
    t.fault = s.fault ∨ t = s.withFault t.fault := by
  cases h with
  | faulted code => exact .inr rfl
  | _ => exact .inl (by simp)

end

/-! ### The causes of each code, over the rows of the table -/

/-- A guarded row of the table answers a proper code where its guard holds, and then its own code. -/
theorem guardedFault_eq_iff {p : Prop} [Decidable p] {raised code : FaultCode} (hc : code ≠ .none) :
    (if p then raised else .none) = code ↔ p ∧ raised = code := by
  rw [ite_eq_iff, or_iff_left fun h => hc h.2.symm]

section
variable (s : State) (i : Instr)

theorem raisedFault_eq_stackOverflow_iff :
    raisedFault s i = .stackOverflow ↔ (∃ nnn, i = .call nnn) ∧ s.sp.val = 16 := by
  cases i <;> simp [raisedFault, guardedFault_eq_iff]

theorem raisedFault_eq_stackUnderflow_iff : raisedFault s i = .stackUnderflow ↔ i = .ret ∧ s.sp.val = 0 := by
  cases i <;> simp [raisedFault, guardedFault_eq_iff]

-- Mathlib's lemma for `if _ then a else b = a` is put aside: it would take these rows before `guardedFault_eq_iff`.
theorem raisedFault_eq_dataOutOfRange_iff :
    raisedFault s i = .dataOutOfRange ↔
      (∃ x y n, i = .drw x y n ∧ 0 < n.toNat ∧ 0xFFF < s.I.toNat + n.toNat - 1) ∨
      (∃ x, i = .ldB x ∧ 0xFFF < s.I.toNat + 2) ∨
      (∃ x, (i = .stRegs x ∨ i = .ldRegs x) ∧ 0xFFF < s.I.toNat + x.toNat) := by
  cases i <;> simp [raisedFault, guardedFault_eq_iff, -ite_eq_left_iff]

/-- A fetch fault is the step's own, never Execute's (R140). -/
theorem raisedFault_ne_fetchOutOfRange : raisedFault s i ≠ .fetchOutOfRange := by
  cases i <;> simp [raisedFault, guardedFault_eq_iff]

end

/-- Settles O17: Execute's fault is the tabulated one, and a raised fault is the whole effect. -/
theorem faultsHaveNamedCauses : Obligations.FaultsHaveNamedCauses := by
  intro i s t hf h
  have hcode : t.fault = raisedFault s i := exec_fault hf h
  refine ⟨?_, ?_, ?_, ?_, fun hne => ?_⟩
  · rw [hcode]; exact raisedFault_eq_stackOverflow_iff s i
  · rw [hcode]; exact raisedFault_eq_stackUnderflow_iff s i
  · rw [hcode]; exact raisedFault_eq_dataOutOfRange_iff s i
  · rw [hcode]; exact raisedFault_ne_fetchOutOfRange s i
  · obtain hkeep | hraise := (execEffect_of_exec h).fault_eq_or_eq_withFault
    · exact absurd (hkeep.trans hf) hne
    · exact hraise

end Sys2Proof.Machine
end

section
/-! Reset and hazards (70_reset_and_hazards.md): the idle end of a run and the load port.

An idle end fetches the encoding of a jump to its own pc, so Execute undoes the step's advance and only `started` and the
tick are left of the step. -/

namespace Sys2Proof.Machine

/-! ### The idle end (R166) -/

/-- A fetch in range gives the word that Decode is asked for. -/
theorem fetches_decode_of_fetchWord {s : State} {w : Word} (hf : s.fault = .none) (hw : s.fetchWord = some w) :
    Fetches s (decode w) := by
  have hpc := State.pc_le_of_fetchWord hw
  rw [s.fetchWord_of_le hpc] at hw
  obtain rfl := Option.some.inj hw
  exact ⟨hf, hpc, decodeBytes_pair _ _⟩

/-- A pc below 0x1000 is the target of the jump whose address field holds its low 12 bits. -/
theorem zextAddr_setWidth_of_le {a : Word} (ha : a.toNat ≤ 0xFFF) : zextAddr (a.setWidth 12) = a := by
  apply BitVec.eq_of_toNat_eq
  rw [zextAddr_toNat, BitVec.toNat_setWidth]
  exact Nat.mod_eq_of_lt (Nat.lt_succ_of_le ha)

/-- The word `0x1000 | a` is a jump to `a`. -/
theorem decode_jump_of_le {a : Word} (ha : a.toNat ≤ 0xFFF) : decode (0x1000#16 ||| a) = .jp (a.setWidth 12) := by
  calc decode (0x1000#16 ||| a)
      = decode (0x1000#16 ||| zextAddr (a.setWidth 12)) := by rw [zextAddr_setWidth_of_le ha]
    _ = decode (encode (.jp (a.setWidth 12))) := rfl
    _ = .jp (a.setWidth 12) := decode_encode rfl

section
variable {s : State}

/-- An idle end fetches a jump. -/
theorem State.idleEnd.fetches_jp (h : s.idleEnd) : Fetches s (.jp (s.pc.setWidth 12)) := by
  obtain ⟨hf, hw, hpc⟩ := h
  rw [← decode_jump_of_le (Nat.le_succ_of_le hpc)]
  exact fetches_decode_of_fetchWord hf hw

/-- Execute of that jump goes back to the pc that the step began with. -/
theorem State.idleEnd.exec_jp (h : s.idleEnd) :
    exec (.jp (s.pc.setWidth 12)) s.beginExecute = .next { s with started := true } := by
  obtain ⟨-, -, hpc⟩ := h
  calc exec (.jp (s.pc.setWidth 12)) s.beginExecute
      = .next (s.beginExecute.setPc (zextAddr (s.pc.setWidth 12))) := rfl
    _ = .next (s.beginExecute.setPc s.pc) := by rw [zextAddr_setWidth_of_le (Nat.le_succ_of_le hpc)]
    _ = .next { s with started := true } := rfl

theorem State.idleEnd.step_eq (h : s.idleEnd) : step s = .next ({ s with started := true } : State).endStep :=
  step_eq_endStep_of_fetches h.fetches_jp h.exec_jp h.1

/-- Being an idle end speaks only of the fault, the pc and memory, which the tick and `started` leave alone. -/
theorem State.idleEnd.endStep_started (h : s.idleEnd) : ({ s with started := true } : State).endStep.idleEnd := h

end

/-- Settles O59: the jump undoes the step's advance, so the tick is all that is left of the step. -/
theorem idleEndOnlyTicks : Obligations.IdleEndOnlyTicks := fun s h =>
  ⟨_, h.step_eq, h.endStep_started, countDown_toNat s.DT, countDown_toNat s.ST, onlyChanges_endStep_started s⟩

/-! ### The load port (R156, R157) -/

/-- Settles O60: an image that fits ends at most at MEMTOP, so it is one block of writes from ORIGIN on. -/
theorem loadCopiesImageOrRefuses : Obligations.LoadCopiesImageOrRefuses := by
  refine fun bytes s => ⟨fun hs hl hm => ?_, State.load_of_refused⟩
  have hfits : 0x200 + bytes.length ≤ 4096 := by omega
  exact ⟨_, State.load_of_fits hs hl, fun k hk => Memory.read_writeList hm bytes hfits hk,
    fun a ha => Memory.read_writeList_of_not_mem s.mem bytes ha, onlyChanges_mem s _⟩

end Sys2Proof.Machine
end

section
/-! Sample words (95_test_vectors.md, section 2.1): each is a word of its instruction's opcode-table row, so the row's
`Encodes` clause decodes it, ignored bits (R72) included. -/

namespace Sys2Proof.Machine

/-- Settles O10: eight words are instances of their rows, and R73 lists the last. -/
theorem sampleWordsDecode : Obligations.SampleWordsDecode := by
  obtain ⟨encodesCls, -⟩ := clearScreen
  obtain ⟨encodesRet, -⟩ := retPopsReturnAddress
  obtain ⟨encodesSeVxVy, -⟩ := skipOnRegisters
  obtain ⟨encodesSubn, -⟩ := subnRegistersStrictNoBorrow
  obtain ⟨encodesDrw, -⟩ := drawTogglesCoveredCells
  obtain ⟨-, encodesSknp, -⟩ := skipOnKey
  obtain ⟨encodesAddI, -⟩ := addToIndex
  obtain ⟨encodesLdI, -⟩ := loadIndex
  obtain ⟨unassignedIsNop, -⟩ := nopOnlyAdvancesAndTicks
  exact ⟨encodesCls _ rfl, encodesRet _ rfl, encodesSeVxVy _ rfl, encodesSubn _ rfl, encodesDrw _ rfl,
    encodesSknp _ rfl, encodesAddI _ rfl, encodesLdI _ rfl, unassignedIsNop _ rfl⟩

end Sys2Proof.Machine
end
